-- ==== Sys2Proof/Word.lean ====
section
/-! DEFINITION. The word and byte types of the core, the fixed-length lane arrays of its port, and the
two register files as plain data (spec R7, R12, R20, R22, R70, R73). -/

namespace Sys2Proof

/-- A byte (R12). -/
abbrev Byte := BitVec 8

/-- `W64`, a 64-bit word; bit 0 is the least significant bit (R12). -/
abbrev W64 := BitVec 64

/-- `n` byte lanes of the command port, lane 0 first (R70, R73). -/
abbrev Lanes (n : Nat) := { bs : List Byte // bs.length = n }

/-- The state register file `S[0..4]`: five 64-bit words (R7, R20). -/
structure Sponge where
  w0 : W64
  w1 : W64
  w2 : W64
  w3 : W64
  w4 : W64
deriving DecidableEq, Repr, Inhabited

/-- The key register file `K[0..2]`: three 64-bit words (R7, R22). -/
structure KeyFile where
  k0 : W64
  k1 : W64
  k2 : W64
deriving DecidableEq, Repr, Inhabited

/-- All five state words zero: the value `S` is scrubbed to (R36, R145). -/
def Sponge.zero : Sponge := ⟨0, 0, 0, 0, 0⟩

/-- All three key words zero: the value `K` is scrubbed to (R36, R145). -/
def KeyFile.zero : KeyFile := ⟨0, 0, 0⟩

end Sys2Proof
end

