-- ==== Sys2Proof/Config.lean ====
section
/-! DEFINITION. The configuration record `CFG` of R8. What the spec leaves OPEN is a constant without a
body, so nothing about its value can be proved (log 4); what it decides is written here (R9, R11). -/

namespace Sys2Proof

/-- The configured rate: `RATE` is 8 or 16 bytes, and both are in scope (R8). -/
inductive Rate where
  | r8
  | r16
deriving DecidableEq, Repr, Inhabited

/-- `RATE` in bytes (R8). -/
def Rate.bytes : Rate → Nat
  | .r8 => 8
  | .r16 => 16

/-- A round count, as the permutation port carries it: 4 bits (R65). -/
abbrev RoundCount := BitVec 4

/-- `ROUNDS_B`, the light round count that goes with the rate (R9). -/
def Rate.roundsB : Rate → RoundCount
  | .r8 => 6
  | .r16 => 8

/-- `ROUNDS_A`, the round count of initialization and finalization (R7). -/
def roundsA : RoundCount := 12

/-- `CFG` (R8): fixed when an instance is built and written by no command. -/
structure Cfg where
  /-- `RATE`, which also fixes `ROUNDS_B` (R9). -/
  rate : Rate
  /-- `IV`, the constant that identifies the variant. -/
  iv : W64
  /-- `KEYROT`, a total function of its two words (R10). -/
  keyrot : W64 → W64 → W64
  /-- `PADBYTE`, the padding marker within its byte (R11). -/
  padByte : Byte
  /-- `DSEP_WORD`, the state word that holds the domain-separation bit (R112). -/
  dsepWord : Fin 5
  /-- `DSEP_BIT`, the position of that bit (R112). -/
  dsepBit : Fin 64
  /-- `PERM`, the external permutation, applied to the state and a round count (R8, R65). -/
  perm : Sponge → RoundCount → Sponge
  /-- `PBUF_BYTES`, the size of the plaintext hold buffer, below 2^32. -/
  pbufBytes : Fin 4294967296
deriving Inhabited

/-- What V12 of spec/93_implementation_defined.md calls a configuration of this hardware: one bit of
`PADBYTE` set, and a domain-separation bit outside the rate region (R8, R112). No rule needs it (log 16). -/
def Cfg.wellFormed (cfg : Cfg) : Bool :=
  (List.range 8).any (fun k => cfg.padByte == BitVec.ofNat 8 (2 ^ k)) &&
    decide (cfg.rate.bytes ≤ 8 * cfg.dsepWord.val)

/-- The spec's reference value of `KEYROT` (R10): the high half of `a` below the low half of `b`. -/
def keyrotReference (a b : W64) : W64 := (a >>> 32) ||| (b <<< 32)

namespace Config

/-- OPEN: the rate this instance is built with (R8, U8). -/
opaque rate : Rate

/-- OPEN: the initialization constant (R8, D20). -/
opaque iv : W64

/-- OPEN: the two-argument key rotation (R10, D21). -/
opaque keyrot : W64 → W64 → W64

/-- OPEN: the domain-separation word (R112, D22). -/
opaque dsepWord : Fin 5

/-- OPEN: the domain-separation bit (R112, D22). -/
opaque dsepBit : Fin 64

/-- OPEN and uninterpreted: the permutation unit (R8, D23). -/
opaque perm : Sponge → RoundCount → Sponge

/-- OPEN: the size of the plaintext hold buffer (R8, D10). -/
opaque pbufBytes : Fin 4294967296

/-- The configuration of the machine: the OPEN parameters, and the decided `PADBYTE = 0x01` (R8, R11). -/
def cfg : Cfg where
  rate := rate
  iv := iv
  keyrot := keyrot
  padByte := 0x01
  dsepWord := dsepWord
  dsepBit := dsepBit
  perm := perm
  pbufBytes := pbufBytes

end Config

end Sys2Proof
end

