-- ==== Sys2Proof/Syntax.lean ====
section
/-! DEFINITION. The commands of the core as syntax: one constructor of `Instr` for each row of
spec/opcode_table.json, the command as it stands on the port, and the names of the fault codes. -/

namespace Sys2Proof

/-- The direction of an operation (R27, R77): bit 9 of the `INIT` header. -/
inductive Dir where
  | enc
  | dec
deriving DecidableEq, Repr

/-- The fault codes of R194 that a command can raise. `ERRCODE = 0` is `none` of `Option FaultCode`. -/
inductive FaultCode where
  | illegalOp
  | reservedBits
  | badLen
  | badPhase
  | pbufOverflow
deriving DecidableEq, Repr

/-- A command on the port (R70): the 16-bit header `CMD` and the 20 payload lanes `DIN`. -/
structure Command where
  header : BitVec 16
  din : Lanes 20
deriving DecidableEq, Repr

/-- The thirteen commands (R75). `len` is the header field `LEN`, which may hold a value that is not
legal for the command (R75: such a header decodes to the command and then faults); `din` are the payload
lanes, kept for the commands that read one (R72). -/
inductive Instr where
  | stat (len : BitVec 5)
  | ldkey (len : BitVec 5) (din : Lanes 20)
  | init (dir : Dir) (len : BitVec 5) (din : Lanes 20)
  | adblk (len : BitVec 5) (din : Lanes 20)
  | adlast (len : BitVec 5) (din : Lanes 20)
  | encblk (len : BitVec 5) (din : Lanes 20)
  | enclast (len : BitVec 5) (din : Lanes 20)
  | decblk (len : BitVec 5) (din : Lanes 20)
  | declast (len : BitVec 5) (din : Lanes 20)
  | finenc (len : BitVec 5)
  | findec (len : BitVec 5) (din : Lanes 20)
  | rdpt (len : BitVec 5)
  | scrub (len : BitVec 5)
deriving DecidableEq, Repr

end Sys2Proof
end

