-- ==== Sys2Proof/Decode.lean ====
section
/-! DEFINITION. The command encoding of spec/30_encoding.md: the header fields (R71), the opcode map
(R75) with the reserved encodings refused by the name of their fault code (R76), the legal lengths (R74),
and the encoder written from the same table. -/

namespace Sys2Proof

/-- Header bits 3:0, `OP` (R71). -/
def opField (h : BitVec 16) : BitVec 4 := h.extractLsb' 0 4

/-- Header bits 8:4, `LEN` (R71). -/
def lenField (h : BitVec 16) : BitVec 5 := h.extractLsb' 4 5

/-- Header bit 9, `DIR` (R71). -/
def dirField (h : BitVec 16) : BitVec 1 := h.extractLsb' 9 1

/-- Header bits 15:10, reserved (R71). -/
def rsvField (h : BitVec 16) : BitVec 6 := h.extractLsb' 10 6

/-- The direction that header bit 9 names (R71, R77). -/
def Dir.ofBit (b : BitVec 1) : Dir := if b = 1 then .dec else .enc

/-- The bit of a direction: 0 encrypt, 1 decrypt (R71, R77). -/
def Dir.bit : Dir → BitVec 1
  | .enc => 0
  | .dec => 1

/-- The opcode map of R75; `none` for the reserved opcodes 0xD, 0xE, 0xF. -/
def selectRow (op : BitVec 4) (dir : BitVec 1) (len : BitVec 5) (din : Lanes 20) : Option Instr :=
  match op.toNat with
  | 0x0 => some (.stat len)
  | 0x1 => some (.ldkey len din)
  | 0x2 => some (.init (Dir.ofBit dir) len din)
  | 0x3 => some (.adblk len din)
  | 0x4 => some (.adlast len din)
  | 0x5 => some (.encblk len din)
  | 0x6 => some (.enclast len din)
  | 0x7 => some (.decblk len din)
  | 0x8 => some (.declast len din)
  | 0x9 => some (.finenc len)
  | 0xA => some (.findec len din)
  | 0xB => some (.rdpt len)
  | 0xC => some (.scrub len)
  | _ => none

/-- The decoder, total on every command: checks 1 to 3 of R193 in their order, then the row of R75. A
header that no command has is refused by the fault code it raises (R76). -/
def decode (c : Command) : Except FaultCode Instr :=
  if rsvField c.header ≠ 0 then .error .reservedBits
  else
    match selectRow (opField c.header) (dirField c.header) (lenField c.header) c.din with
    | none => .error .illegalOp
    | some i =>
      if dirField c.header = 1 ∧ opField c.header ≠ 0x2 then .error .reservedBits else .ok i

/-- The legal values of `LEN` per command (R74). -/
def lenLegal (rate : Rate) : Instr → Bool
  | .stat len => len.toNat == 0
  | .ldkey len _ => len.toNat == 20
  | .init _ len _ => len.toNat == 16
  | .adblk len _ => len.toNat == rate.bytes
  | .adlast len _ => decide (len.toNat < rate.bytes)
  | .encblk len _ => len.toNat == rate.bytes
  | .enclast len _ => decide (len.toNat < rate.bytes)
  | .decblk len _ => len.toNat == rate.bytes
  | .declast len _ => decide (len.toNat < rate.bytes)
  | .finenc len => len.toNat == 0
  | .findec len _ => decide (len.toNat ≤ 16)
  | .rdpt len => decide (1 ≤ len.toNat ∧ len.toNat ≤ 16)
  | .scrub len => len.toNat == 0

/-- Decoding in the sense of R78: exactly one command with a legal `LEN`, or exactly one of the codes
`RESERVED_BITS`, `ILLEGAL_OP`, `BAD_LEN`. -/
def classify (rate : Rate) (c : Command) : Except FaultCode Instr :=
  match decode c with
  | .error e => .error e
  | .ok i => if lenLegal rate i then .ok i else .error .badLen

/-! The encoder, from the same table. -/

/-- `OP` of a command (R75). -/
def Instr.opcode : Instr → BitVec 4
  | .stat _ => 0x0
  | .ldkey _ _ => 0x1
  | .init _ _ _ => 0x2
  | .adblk _ _ => 0x3
  | .adlast _ _ => 0x4
  | .encblk _ _ => 0x5
  | .enclast _ _ => 0x6
  | .decblk _ _ => 0x7
  | .declast _ _ => 0x8
  | .finenc _ => 0x9
  | .findec _ _ => 0xA
  | .rdpt _ => 0xB
  | .scrub _ => 0xC

/-- `LEN` of a command (R71). -/
def Instr.len : Instr → BitVec 5
  | .stat len => len
  | .ldkey len _ => len
  | .init _ len _ => len
  | .adblk len _ => len
  | .adlast len _ => len
  | .encblk len _ => len
  | .enclast len _ => len
  | .decblk len _ => len
  | .declast len _ => len
  | .finenc len => len
  | .findec len _ => len
  | .rdpt len => len
  | .scrub len => len

/-- Header bit 9 of a command: set by `INIT dec` alone (R71). -/
def Instr.dirBit : Instr → BitVec 1
  | .stat _ => 0
  | .ldkey _ _ => 0
  | .init dir _ _ => dir.bit
  | .adblk _ _ => 0
  | .adlast _ _ => 0
  | .encblk _ _ => 0
  | .enclast _ _ => 0
  | .decblk _ _ => 0
  | .declast _ _ => 0
  | .finenc _ => 0
  | .findec _ _ => 0
  | .rdpt _ => 0
  | .scrub _ => 0

/-- Twenty zero lanes. -/
def Lanes.zero20 : Lanes 20 := ⟨List.replicate 20 0, by simp⟩

/-- The payload lanes of a command; zero lanes for the commands that read none (R72). -/
def Instr.payload : Instr → Lanes 20
  | .stat _ => Lanes.zero20
  | .ldkey _ din => din
  | .init _ _ din => din
  | .adblk _ din => din
  | .adlast _ din => din
  | .encblk _ din => din
  | .enclast _ din => din
  | .decblk _ din => din
  | .declast _ din => din
  | .finenc _ => Lanes.zero20
  | .findec _ din => din
  | .rdpt _ => Lanes.zero20
  | .scrub _ => Lanes.zero20

/-- `header = OP | (LEN << 4) | (DIR << 9)` (R71). -/
def headerOf (op : BitVec 4) (len : BitVec 5) (dir : BitVec 1) : BitVec 16 :=
  op.setWidth 16 ||| (len.setWidth 16 <<< 4) ||| (dir.setWidth 16 <<< 9)

/-- The command that stands on the port for `i` (R70, R71). -/
def encode (i : Instr) : Command where
  header := headerOf i.opcode i.len i.dirBit
  din := i.payload

/-! The opcode table as rows, as R75 prints it. -/

/-- One row of R75's table: a header `h` selects it when `h & mask = value` (the spec's `match`). -/
structure OpRow where
  mnemonic : String
  value : BitVec 16
  mask : BitVec 16
deriving DecidableEq, Repr

/-- The table of R75 (and of spec/opcode_table.json). -/
def opTable : List OpRow :=
  [⟨"STAT", 0x0000, 0xFE0F⟩, ⟨"LDKEY", 0x0001, 0xFE0F⟩, ⟨"INIT", 0x0002, 0xFC0F⟩,
   ⟨"ADBLK", 0x0003, 0xFE0F⟩, ⟨"ADLAST", 0x0004, 0xFE0F⟩, ⟨"ENCBLK", 0x0005, 0xFE0F⟩,
   ⟨"ENCLAST", 0x0006, 0xFE0F⟩, ⟨"DECBLK", 0x0007, 0xFE0F⟩, ⟨"DECLAST", 0x0008, 0xFE0F⟩,
   ⟨"FINENC", 0x0009, 0xFE0F⟩, ⟨"FINDEC", 0x000A, 0xFE0F⟩, ⟨"RDPT", 0x000B, 0xFE0F⟩,
   ⟨"SCRUB", 0x000C, 0xFE0F⟩]

/-- The table's name of a command (R75). -/
def Instr.mnemonic : Instr → String
  | .stat _ => "STAT"
  | .ldkey _ _ => "LDKEY"
  | .init _ _ _ => "INIT"
  | .adblk _ _ => "ADBLK"
  | .adlast _ _ => "ADLAST"
  | .encblk _ _ => "ENCBLK"
  | .enclast _ _ => "ENCLAST"
  | .decblk _ _ => "DECBLK"
  | .declast _ _ => "DECLAST"
  | .finenc _ => "FINENC"
  | .findec _ _ => "FINDEC"
  | .rdpt _ => "RDPT"
  | .scrub _ => "SCRUB"

/-- The rows a header selects (R75). -/
def OpRow.selectedBy (h : BitVec 16) : List OpRow :=
  opTable.filter (fun r => h &&& r.mask == r.value)

/-! Commands as numbers (log 8): bits 15:0 are the header, and `DIN[i]` stands at bits 8i+7:8i of the
160 bits above it (R70). -/

/-- The command whose bits are `w`. -/
def Command.ofBits (w : Nat) : Command where
  header := BitVec.ofNat 16 w
  din := ⟨(List.range 20).map (fun i => BitVec.ofNat 8 (w / 2 ^ (16 + 8 * i))), by simp⟩

/-- The instruction this decoder reads from a table word of `nbits` bits; the payload bits above it are
zero (log 8). -/
def decodeTableWord (nbits w : Nat) : Option Instr :=
  match decode (Command.ofBits (w % 2 ^ nbits)) with
  | .ok i => some i
  | .error _ => none

end Sys2Proof
end

