-- ==== Sys2Proof/WellFormed.lean ====
section
/-! DEFINITION. What makes a command well-formed: a legal `LEN` (R74, R76). The fields of `Instr` admit
nothing else that a well-formed header could not hold. -/

namespace Sys2Proof

/-- A command of a core with rate `rate` is well-formed when its `LEN` is in the legal set of R74. -/
abbrev Instr.WellFormedAt (rate : Rate) (i : Instr) : Prop := lenLegal rate i = true

/-- Well-formed for the configured rate. -/
abbrev Instr.WellFormed (i : Instr) : Prop := i.WellFormedAt Config.rate

/-- A command on the port is well-formed when it decodes to a well-formed command (R76, R78). -/
abbrev Command.WellFormedAt (rate : Rate) (c : Command) : Prop := (classify rate c).toOption.isSome = true

end Sys2Proof
end

