-- ==== Sys2Proof/Machine/State.lean ====
section
/-! DEFINITION. The state of one instance: the tuple of spec/10_state.md as `Arch`, and the two ends of the
command port (`inbox`, `outbox`) that make a list of commands and its list of responses part of a run
(R228; log 1, log 2). Plain data throughout. -/

namespace Sys2Proof.Machine

/-- The sequencer register `PHASE` (R24): five states, the values 5, 6, 7 are never held. -/
inductive Phase where
  | uninitialized
  | initialized
  | absorbingAD
  | processing
  | finalized
deriving DecidableEq, Repr

/-- `AUTHCAUSE` (R29, R191). -/
inductive AuthCause where
  | tagMismatch
  | undersized
deriving DecidableEq, Repr

/-- `RSP` (R73, R190): the values 3..15 never occur. -/
inductive Rsp where
  | ok
  | authFail
  | fault
deriving DecidableEq, Repr

/-- A response (R73): `RSP`, `DOUT_LEN` and the 16 lanes `DOUT`. -/
structure Response where
  rsp : Rsp
  doutLen : BitVec 5
  dout : Lanes 16
deriving DecidableEq, Repr

/-- What the host can do to the core: present a command (R70), or assert reset, which falls between commands
or takes the place of one (R220; log 3). -/
inductive HostEvent where
  | command (c : Command)
  | reset
deriving DecidableEq, Repr

/-- The contents of the hold buffer `PBUF` (R34, R58): the bytes that are not zero, by offset. -/
abbrev Memory := List Host.Cell

/-- What an offset that is not listed reads as: zero, the reset contents (R36). -/
def Memory.unlisted : Byte := 0

/-- The canonical form: offsets strictly rising, and no entry that reads as an unlisted offset does. -/
def Memory.wf : Memory → Bool
  | [] => true
  | [c] => c.2 != Memory.unlisted
  | c :: d :: m => c.2 != Memory.unlisted && decide (c.1 < d.1) && Memory.wf (d :: m)

/-- The architectural state (head of spec/10_state.md). -/
structure Arch where
  /-- `S[0..4]` (R20). -/
  S : Sponge
  /-- `K[0..2]` (R22). -/
  K : KeyFile
  /-- `PHASE` (R24). -/
  phase : Phase
  /-- `KVALID` (R26). -/
  kvalid : Bool
  /-- `DIR` (R27). -/
  dir : Dir
  /-- `DDONE` (R28). -/
  ddone : Bool
  /-- `AUTH_OK` (R29). -/
  authOk : Bool
  /-- `AUTH_FAIL` (R29). -/
  authFail : Bool
  /-- `AUTHCAUSE` (R29). -/
  authCause : AuthCause
  /-- `ERR` (R30). -/
  err : Bool
  /-- `ERRCODE` (R30, R194); `none` is code 0. -/
  errCode : Option FaultCode
  /-- `PLEN` (R32). -/
  plen : BitVec 32
  /-- `PRD` (R32). -/
  prd : BitVec 32
  /-- `PBUF` (R34). -/
  pbuf : Memory
deriving DecidableEq, Repr

/-- The state of the machine: the architectural state, the events the host will present, oldest first, and
the responses produced so far, oldest first. -/
structure State extends Arch where
  inbox : List HostEvent
  outbox : List Response
deriving DecidableEq, Repr

/-- Why the machine stops. Nothing the spec describes stops it (R190, R232). -/
inductive Fault where
  /-- `PBUF` is read at an offset that does not exist (R58). Raised by `RDPT` only, and only in a state with
  `PLEN > PBUF_BYTES`, which no run reaches (R37 j). Safe: the machine stops where the spec has no rule (log 10). -/
  | pbufOutOfRange
deriving DecidableEq, Repr

/-- Why a step has no meaning. -/
inductive Refusal where
  /-- Raised by exec's arm of a command that has no meaning yet; no arm does. Safe. -/
  | notModelled (mnemonic : String)
deriving DecidableEq, Repr

/-- The reset values of R36. -/
def Arch.reset : Arch where
  S := Sponge.zero
  K := KeyFile.zero
  phase := .uninitialized
  kvalid := false
  dir := .enc
  ddone := false
  authOk := false
  authFail := false
  authCause := .tagMismatch
  err := false
  errCode := none
  plen := 0
  prd := 0
  pbuf := []

/-- The machine right after reset (R36, R220), with no event waiting and no response produced (log 9). -/
def State.reset : State where
  toArch := Arch.reset
  inbox := []
  outbox := []

end Sys2Proof.Machine
end

