-- ==== Sys2Proof/Machine/Flags.lean ====
section
/-! DEFINITION. The numeric encodings of the flags and the status register `STATUS` (R24, R29, R31, R73,
R194). -/

namespace Sys2Proof.Machine

/-- A flag as one bit. -/
def flagBit (b : Bool) : BitVec 1 := if b then 1 else 0

/-- The encoding of `PHASE` (R24). -/
def Phase.code : Phase → BitVec 3
  | .uninitialized => 0
  | .initialized => 1
  | .absorbingAD => 2
  | .processing => 3
  | .finalized => 4

/-- The encoding of `AUTHCAUSE` (R29, R31). -/
def AuthCause.bit : AuthCause → BitVec 1
  | .tagMismatch => 0
  | .undersized => 1

/-- The fault codes of R194. -/
def faultNumber : FaultCode → BitVec 4
  | .illegalOp => 1
  | .reservedBits => 2
  | .badLen => 3
  | .badPhase => 4
  | .pbufOverflow => 5

/-- `ERRCODE` as a number: 0 when no fault is recorded (R194). -/
def errCodeBits : Option FaultCode → BitVec 4
  | none => 0
  | some c => faultNumber c

/-- The encoding of `RSP` (R73). -/
def Rsp.code : Rsp → BitVec 4
  | .ok => 0
  | .authFail => 1
  | .fault => 2

/-- `RATE_SEL`, the hardwired copy of the rate (R31). -/
def rateSel : Rate → BitVec 1
  | .r8 => 0
  | .r16 => 1

/-- The status register (R31), most significant field first: bits 31:15 zero, `RATE_SEL` 14, `AUTHCAUSE` 13,
`ERRCODE` 12:9, `ERR` 8, `AUTH_FAIL` 7, `AUTH_OK` 6, `DDONE` 5, `DIR` 4, `KVALID` 3, `PHASE` 2:0. -/
def status (rate : Rate) (a : Arch) : BitVec 32 :=
  (0#17 ++ rateSel rate ++ a.authCause.bit ++ errCodeBits a.errCode ++ flagBit a.err ++
    flagBit a.authFail ++ flagBit a.authOk ++ flagBit a.ddone ++ a.dir.bit ++ flagBit a.kvalid ++
    a.phase.code : BitVec 32)

end Sys2Proof.Machine
end

