-- ==== Sys2Proof/Machine/Operands.lean ====
section
/-! DEFINITION. Operands: payload bytes, the byte order of every transfer (R50 to R53), the padding marker
(R11), the rate region and its four primitives (R54 to R57), the domain-separation bit (R112), the key
schedule (R91), and the permutation port (R65). -/

namespace Sys2Proof.Machine

/-- `DIN[at..at+n-1]` (R13). -/
def dinSlice (din : Lanes 20) (start n : Nat) : List Byte := (din.val.drop start).take n

/-- The operand of a command: `DIN[0..LEN-1]` (R72). -/
def operand (din : Lanes 20) (len : BitVec 5) : List Byte := dinSlice din 0 len.toNat

/-- The bytes of `bs` placed from byte position `j` upward. -/
def loadFrom (j : Nat) : List Byte → W64
  | [] => 0
  | b :: bs => (b.setWidth 64 <<< (8 * j)) ||| loadFrom (j + 1) bs

/-- `LOADBYTES(b, n)` with `n` the length of `b` (R51): byte 0 of the sequence is the least significant. -/
def loadBytes (bs : List Byte) : W64 := loadFrom 0 bs

/-- `STOREBYTES(w, n)` (R52): byte `j` is `w[8j+7:8j]`. -/
def storeBytes (w : W64) (n : Nat) : List Byte :=
  (List.range n).map (fun j => w.extractLsb' (8 * j) 8)

/-- `MASK(n) = 2^(8n) - 1` (R53). -/
def mask (n : Nat) : W64 := BitVec.ofNat 64 (2 ^ (8 * n) - 1)

/-- `PAD(n) = zext_64(PADBYTE) << (8n)` (R11). -/
def padMarker (cfg : Cfg) (n : Nat) : W64 := cfg.padByte.setWidth 64 <<< (8 * n)

/-- `XORREGION(b, n)` (R55). -/
def xorRegion (bs : List Byte) (s : Sponge) : Sponge :=
  if bs.length ≤ 8 then { s with w0 := s.w0 ^^^ loadBytes bs }
  else { s with w0 := s.w0 ^^^ loadBytes (bs.take 8), w1 := s.w1 ^^^ loadBytes (bs.drop 8) }

/-- `PADREGION(n)` (R56). -/
def padRegion (cfg : Cfg) (n : Nat) (s : Sponge) : Sponge :=
  if n < 8 then { s with w0 := s.w0 ^^^ padMarker cfg n }
  else { s with w1 := s.w1 ^^^ padMarker cfg (n - 8) }

/-- `REGIONBYTES(n)` (R57). -/
def regionBytes (n : Nat) (s : Sponge) : List Byte :=
  (storeBytes s.w0 8 ++ storeBytes s.w1 8).take n

/-- The masked overwrite of the low bytes of one word (R57, R131). -/
def replaceLow (w : W64) (bs : List Byte) : W64 := (w &&& ~~~(mask bs.length)) ||| loadBytes bs

/-- `REPLACEREGION(b, n)` (R57): region bytes at and beyond `n` keep their value. -/
def replaceRegion (bs : List Byte) (s : Sponge) : Sponge :=
  if bs.length ≤ 8 then { s with w0 := replaceLow s.w0 bs }
  else { s with w0 := loadBytes (bs.take 8), w1 := replaceLow s.w1 (bs.drop 8) }

/-- `S[i]` (R13). -/
def wordAt (s : Sponge) (i : Fin 5) : W64 :=
  match i with
  | 0 => s.w0
  | 1 => s.w1
  | 2 => s.w2
  | 3 => s.w3
  | 4 => s.w4

/-- `S[i] <- v` (R13). -/
def setWord (s : Sponge) (i : Fin 5) (v : W64) : Sponge :=
  match i with
  | 0 => { s with w0 := v }
  | 1 => { s with w1 := v }
  | 2 => { s with w2 := v }
  | 3 => { s with w3 := v }
  | 4 => { s with w4 := v }

/-- `S[DSEP_WORD] <- S[DSEP_WORD] ^ (1 << DSEP_BIT)` (R112). -/
def domainSeparate (cfg : Cfg) (s : Sponge) : Sponge :=
  setWord s cfg.dsepWord (wordAt s cfg.dsepWord ^^^ (1#64 <<< cfg.dsepBit.val))

/-! The permutation port (R65). -/

/-- What the core sends to the permutation unit: the 320-bit request bus and the 4-bit round count (R65). -/
structure PermRequest where
  words : BitVec 320
  rounds : RoundCount
deriving DecidableEq, Repr

/-- The five state words on the 320-bit request bus: `S[i]` at bits 64i+63:64i (R65). -/
def permBus (s : Sponge) : BitVec 320 := s.w4 ++ s.w3 ++ s.w2 ++ s.w1 ++ s.w0

/-- The five state words on the 320-bit answer bus, in the same word order (R65). -/
def ofPermBus (v : BitVec 320) : Sponge where
  w0 := v.extractLsb' 0 64
  w1 := v.extractLsb' 64 64
  w2 := v.extractLsb' 128 64
  w3 := v.extractLsb' 192 64
  w4 := v.extractLsb' 256 64

/-- The request the core makes for `PERM(S, r)` (R65). -/
def permRequest (rounds : RoundCount) (s : Sponge) : PermRequest := ⟨permBus s, rounds⟩

/-- The permutation unit at its port: its answer is `PERM` of what the request carries (R8, R65, R231). -/
def permUnit (cfg : Cfg) (q : PermRequest) : BitVec 320 := permBus (cfg.perm (ofPermBus q.words) q.rounds)

/-- `S <- PERM(S, r)`: the state words go out over the port, and the answer is used whole (R13, R65). -/
def permute (cfg : Cfg) (rounds : RoundCount) (s : Sponge) : Sponge :=
  ofPermBus (permUnit cfg (permRequest rounds s))

/-- `load_key` (R91) on the 20 raw key bytes. -/
def loadKey (cfg : Cfg) (raw : List Byte) : KeyFile where
  k0 := cfg.keyrot 0 (loadBytes (raw.take 4))
  k1 := loadBytes ((raw.drop 4).take 8)
  k2 := loadBytes ((raw.drop 12).take 8)

end Sys2Proof.Machine
end

