-- ==== Sys2Proof/Machine/Ops.lean ====
section
/-! DEFINITION. The shared operations: the hold buffer (R58), responses (R73), taking a fault (R192) and an
`AuthenticationFailure` (R191), the return from both (R157, R197), reset (R220), the order of the checks
(R193, R195) and the acceptance table (R25). -/

namespace Sys2Proof.Machine

/-! The hold buffer. -/

/-- The byte at an offset. -/
def Memory.read : Memory → Nat → Byte
  | [], _ => Memory.unlisted
  | (k, v) :: m, a => if k = a then v else Memory.read m a

/-- Write one byte, keeping the canonical form: an entry equal to what an unlisted offset reads as is removed. -/
def Memory.write : Memory → Nat → Byte → Memory
  | [], a, b => if b = Memory.unlisted then [] else [(a, b)]
  | (k, v) :: m, a, b =>
    if a < k then (if b = Memory.unlisted then (k, v) :: m else (a, b) :: (k, v) :: m)
    else if a = k then (if b = Memory.unlisted then m else (a, b) :: m)
    else (k, v) :: Memory.write m a b

/-- `MemWrite(a, n, v)` with `n` the length of `v` (R58). Its callers have passed check 6 of R193, so every
offset exists. -/
def memWrite (m : Memory) (a : Nat) : List Byte → Memory
  | [] => m
  | b :: bs => memWrite (m.write a b) (a + 1) bs

/-- `MemRead(a, n)` (R58); `none` when a byte to be read lies outside the buffer (log 10). -/
def memRead (cfg : Cfg) (m : Memory) (a n : Nat) : Option (List Byte) :=
  if n = 0 ∨ a + n ≤ cfg.pbufBytes.val then some ((List.range n).map (fun j => m.read (a + j)))
  else none

/-! Responses. -/

/-- The 16 response lanes that begin with `bs`, the rest zero (R73). -/
def lanes16 (bs : List Byte) : Lanes 16 :=
  ⟨(bs ++ List.replicate 16 0).take 16, by simp⟩

/-- The response `OK` that carries `bs` (R73). -/
def okResponse (bs : List Byte) : Response := ⟨.ok, BitVec.ofNat 5 bs.length, lanes16 bs⟩

/-- The response of an `AuthenticationFailure` (R191). -/
def authFailResponse : Response := ⟨.authFail, 0, lanes16 []⟩

/-- The response of a fault and of a command refused while `ERR = 1` (R192, R195). -/
def faultResponse : Response := ⟨.fault, 0, lanes16 []⟩

/-- Give the response `r` (R73). -/
def State.respond (r : Response) (s : State) : State := { s with outbox := s.outbox ++ [r] }

/-- The end of an executed command: its architectural state and its response. -/
def State.complete (e : Arch × Response) (s : State) : State :=
  { s with toArch := e.1, outbox := s.outbox ++ [e.2] }

/-! Zeroization, exceptions and the return from them. -/

/-- `S[0..4] <- 0; K[0..2] <- 0; KVALID <- 0` (R145). -/
def zeroizeSecrets (a : Arch) : Arch := { a with S := Sponge.zero, K := KeyFile.zero, kvalid := false }

/-- `PBUF[0..PBUF_BYTES-1] <- 0; PLEN <- 0; PRD <- 0` (R145). -/
def zeroizeBuffer (a : Arch) : Arch := { a with pbuf := [], plen := 0, prd := 0 }

/-- Fault entry with code `c` (R192), field by field as the rule lists it. -/
def faultEntry (c : FaultCode) (a : Arch) : Arch :=
  { zeroizeBuffer (zeroizeSecrets a) with
    dir := .enc
    ddone := false
    authOk := false
    authFail := false
    authCause := .tagMismatch
    phase := .finalized
    err := true
    errCode := some c }

/-- `raise Fault(c)` (R13, R192): the command is not executed. -/
def State.raiseFault (c : FaultCode) (s : State) : State := s.complete (faultEntry c s.toArch, faultResponse)

/-- The entry actions of `raise AuthenticationFailure(cause)` (R191). -/
def authFailureEntry (cause : AuthCause) (a : Arch) : Arch :=
  { zeroizeBuffer (zeroizeSecrets a) with
    authFail := true
    authCause := cause
    phase := .finalized }

/-- The return from a fault or an `AuthenticationFailure`, and the end of any operation (R157, R197). -/
def discardOperation (a : Arch) : Arch :=
  { a with
    S := Sponge.zero
    K := KeyFile.zero
    pbuf := []
    plen := 0
    prd := 0
    kvalid := false
    dir := .enc
    ddone := false
    authOk := false
    authFail := false
    authCause := .tagMismatch
    err := false
    errCode := none
    phase := .uninitialized }

/-- Hardware reset (R220): the same effect on the architectural state as `SCRUB` (R221), and no response. -/
def State.hardwareReset (s : State) : State := { s with toArch := discardOperation s.toArch }

/-! The checks that precede execution. -/

/-- The commands served while `ERR = 1`: the exact headers `0x0000` and `0x000C` (R195). -/
def servedInError : Instr → Bool
  | .stat len => len == 0
  | .ldkey _ _ => false
  | .init _ _ _ => false
  | .adblk _ _ => false
  | .adlast _ _ => false
  | .encblk _ _ => false
  | .enclast _ _ => false
  | .decblk _ _ => false
  | .declast _ _ => false
  | .finenc _ => false
  | .findec _ _ => false
  | .rdpt _ => false
  | .scrub len => len == 0

/-- The acceptance table of R25 (check 5 of R193). -/
def acceptedNow (a : Arch) : Instr → Bool
  | .stat _ => true
  | .ldkey _ _ => a.phase == .uninitialized && !a.kvalid
  | .init _ _ _ => a.phase == .uninitialized && a.kvalid
  | .adblk _ _ => a.phase == .initialized || a.phase == .absorbingAD
  | .adlast _ _ => a.phase == .initialized || a.phase == .absorbingAD
  | .encblk _ _ => a.phase == .processing && !a.ddone && a.dir == .enc
  | .enclast _ _ => a.phase == .processing && !a.ddone && a.dir == .enc
  | .decblk _ _ => a.phase == .processing && !a.ddone && a.dir == .dec
  | .declast _ _ => a.phase == .processing && !a.ddone && a.dir == .dec
  | .finenc _ => a.phase == .processing && a.ddone && a.dir == .enc
  | .findec len _ =>
    if len = 16 then a.phase == .processing && a.ddone && a.dir == .dec
    else a.phase == .uninitialized || (a.dir == .dec && a.phase != .finalized)
  | .rdpt _ => a.phase == .finalized && a.authOk
  | .scrub _ => true

/-- Check 6 of R193: the block of `DECBLK` or `DECLAST` fits the hold buffer. -/
def fitsBuffer (cfg : Cfg) (a : Arch) : Instr → Bool
  | .stat _ => true
  | .ldkey _ _ => true
  | .init _ _ _ => true
  | .adblk _ _ => true
  | .adlast _ _ => true
  | .encblk _ _ => true
  | .enclast _ _ => true
  | .decblk len _ => decide (a.plen.toNat + len.toNat ≤ cfg.pbufBytes.val)
  | .declast len _ => decide (a.plen.toNat + len.toNat ≤ cfg.pbufBytes.val)
  | .finenc _ => true
  | .findec _ _ => true
  | .rdpt _ => true
  | .scrub _ => true

/-- What the checks of R193 decide about a command. -/
inductive Verdict where
  /-- `ERR = 1`: answered `FAULT`, nothing changes (R195). -/
  | refuse
  /-- A check fails with this code (R192). -/
  | fault (c : FaultCode)
  /-- Every check has passed (step 7 of R193). -/
  | execute
deriving DecidableEq, Repr

/-- Checks 0 and 4 to 6 of R193, in their order; checks 1 to 3 are the decoder's. -/
def verdict (cfg : Cfg) (a : Arch) (i : Instr) : Verdict :=
  if a.err && !servedInError i then .refuse
  else if !lenLegal cfg.rate i then .fault .badLen
  else if !acceptedNow a i then .fault .badPhase
  else if !fitsBuffer cfg a i then .fault .pbufOverflow
  else .execute

/-- Run a command that always completes: `effect` is step 7 of R193. -/
def runChecked (cfg : Cfg) (i : Instr) (effect : Arch → Arch × Response) (s : State) : State :=
  match verdict cfg s.toArch i with
  | .refuse => s.respond faultResponse
  | .fault c => s.raiseFault c
  | .execute => s.complete (effect s.toArch)

/-- Run a command that reads `PBUF`: `none` stands for a read outside the buffer (log 10). -/
def runReading (cfg : Cfg) (i : Instr) (effect : Arch → Option (Arch × Response)) (s : State) :
    Host.Outcome State Fault Refusal :=
  match verdict cfg s.toArch i with
  | .refuse => .next (s.respond faultResponse)
  | .fault c => .next (s.raiseFault c)
  | .execute =>
    match effect s.toArch with
    | some e => .next (s.complete e)
    | none => .fault .pbufOutOfRange

/-- A command whose header the decoder refuses with code `c`: checks 0 to 3 of R193. -/
def State.rejectHeader (c : FaultCode) (s : State) : State :=
  if s.err then s.respond faultResponse else s.raiseFault c

/-- The calls of `PERM` a command makes when it executes, by their round counts (R233). -/
def permCalls (cfg : Cfg) : Instr → List RoundCount
  | .stat _ => []
  | .ldkey _ _ => []
  | .init _ _ _ => [roundsA]
  | .adblk _ _ => [cfg.rate.roundsB]
  | .adlast _ _ => [cfg.rate.roundsB]
  | .encblk _ _ => [cfg.rate.roundsB]
  | .enclast _ _ => []
  | .decblk _ _ => [cfg.rate.roundsB]
  | .declast _ _ => []
  | .finenc _ => [roundsA]
  | .findec len _ => if len = 16 then [roundsA] else []
  | .rdpt _ => []
  | .scrub _ => []

end Sys2Proof.Machine
end

