-- ==== Sys2Proof/Machine/Absorption.lean ====
section
/-! DEFINITION. Associated-data absorption: `ADBLK`, `ADLAST` and the domain separation
(spec/42_ad_absorption.md). -/

namespace Sys2Proof.Machine

/-- The state after one full block of associated data (R110). -/
def absorbBlock (cfg : Cfg) (s : Sponge) (b : List Byte) : Sponge :=
  permute cfg cfg.rate.roundsB (xorRegion b s)

/-- The state after the last block of associated data: padded, permuted, separated (R111, R112). -/
def absorbLast (cfg : Cfg) (s : Sponge) (b : List Byte) : Sponge :=
  domainSeparate cfg (permute cfg cfg.rate.roundsB (padRegion cfg b.length (xorRegion b s)))

/-- `ADBLK` (R110). -/
def adblkEffect (cfg : Cfg) (len : BitVec 5) (din : Lanes 20) (a : Arch) : Arch × Response :=
  ({ a with S := absorbBlock cfg a.S (operand din len), phase := .absorbingAD }, okResponse [])

/-- `ADLAST` (R111). -/
def adlastEffect (cfg : Cfg) (len : BitVec 5) (din : Lanes 20) (a : Arch) : Arch × Response :=
  ({ a with S := absorbLast cfg a.S (operand din len), phase := .processing }, okResponse [])

/-- `ADBLK` on an instance with configuration `cfg`. -/
def adblkIn (cfg : Cfg) (len : BitVec 5) (din : Lanes 20) (s : State) : Host.Outcome State Fault Refusal :=
  .next (runChecked cfg (.adblk len din) (adblkEffect cfg len din) s)

/-- `ADLAST` on an instance with configuration `cfg`. -/
def adlastIn (cfg : Cfg) (len : BitVec 5) (din : Lanes 20) (s : State) : Host.Outcome State Fault Refusal :=
  .next (runChecked cfg (.adlast len din) (adlastEffect cfg len din) s)

/-- `ADBLK`. -/
def execAdblk (len : BitVec 5) (din : Lanes 20) (s : State) : Host.Outcome State Fault Refusal :=
  adblkIn Config.cfg len din s

/-- `ADLAST`. -/
def execAdlast (len : BitVec 5) (din : Lanes 20) (s : State) : Host.Outcome State Fault Refusal :=
  adlastIn Config.cfg len din s

end Sys2Proof.Machine
end

