-- ==== Sys2Proof/Machine/Decryption.lean ====
section
/-! DEFINITION. The ciphertext to plaintext pipeline: `DECBLK`, `DECLAST` (spec/44_decrypt_pipeline.md).
The recovered bytes go to the hold buffer and never to the response (R34). -/

namespace Sys2Proof.Machine

/-- `p[i] = st[i] ^ c[i]`, the recovered plaintext (R130, R131). -/
def recover (s : Sponge) (c : List Byte) : List Byte :=
  List.zipWith (fun x y => x ^^^ y) (regionBytes c.length s) c

/-- One full block of ciphertext: the state after it and the plaintext block (R130). -/
def decryptBlock (cfg : Cfg) (s : Sponge) (c : List Byte) : Sponge × List Byte :=
  (permute cfg cfg.rate.roundsB (replaceRegion c s), recover s c)

/-- The last block of ciphertext: real bytes replaced, the bytes beyond them kept, then padded; not permuted
(R131; C1 of spec/90_conflicts.md). -/
def decryptLast (cfg : Cfg) (s : Sponge) (c : List Byte) : Sponge × List Byte :=
  (padRegion cfg c.length (replaceRegion c s), recover s c)

/-- `MemWrite(PLEN, n, p); PLEN <- PLEN + n` (R130, R131). -/
def holdPlaintext (p : List Byte) (a : Arch) : Arch :=
  { a with pbuf := memWrite a.pbuf a.plen.toNat p, plen := a.plen + BitVec.ofNat 32 p.length }

/-- `DECBLK` (R130). -/
def decblkEffect (cfg : Cfg) (len : BitVec 5) (din : Lanes 20) (a : Arch) : Arch × Response :=
  let r := decryptBlock cfg a.S (operand din len)
  ({ holdPlaintext r.2 a with S := r.1 }, okResponse [])

/-- `DECLAST` (R131). -/
def declastEffect (cfg : Cfg) (len : BitVec 5) (din : Lanes 20) (a : Arch) : Arch × Response :=
  let r := decryptLast cfg a.S (operand din len)
  ({ holdPlaintext r.2 a with S := r.1, ddone := true }, okResponse [])

/-- `DECBLK` on an instance with configuration `cfg`. -/
def decblkIn (cfg : Cfg) (len : BitVec 5) (din : Lanes 20) (s : State) : Host.Outcome State Fault Refusal :=
  .next (runChecked cfg (.decblk len din) (decblkEffect cfg len din) s)

/-- `DECLAST` on an instance with configuration `cfg`. -/
def declastIn (cfg : Cfg) (len : BitVec 5) (din : Lanes 20) (s : State) : Host.Outcome State Fault Refusal :=
  .next (runChecked cfg (.declast len din) (declastEffect cfg len din) s)

/-- `DECBLK`. -/
def execDecblk (len : BitVec 5) (din : Lanes 20) (s : State) : Host.Outcome State Fault Refusal :=
  decblkIn Config.cfg len din s

/-- `DECLAST`. -/
def execDeclast (len : BitVec 5) (din : Lanes 20) (s : State) : Host.Outcome State Fault Refusal :=
  declastIn Config.cfg len din s

end Sys2Proof.Machine
end

