-- ==== Sys2Proof/Machine/Encryption.lean ====
section
/-! DEFINITION. The plaintext to ciphertext pipeline: `ENCBLK`, `ENCLAST` (spec/43_encrypt_pipeline.md). -/

namespace Sys2Proof.Machine

/-- One full block of plaintext: the state after it and the ciphertext block, taken after the exclusive-or
and before the permutation (R120). -/
def encryptBlock (cfg : Cfg) (s : Sponge) (b : List Byte) : Sponge × List Byte :=
  let x := xorRegion b s
  (permute cfg cfg.rate.roundsB x, regionBytes b.length x)

/-- The last block of plaintext: padded, not permuted (R121). -/
def encryptLast (cfg : Cfg) (s : Sponge) (b : List Byte) : Sponge × List Byte :=
  let x := padRegion cfg b.length (xorRegion b s)
  (x, regionBytes b.length x)

/-- `ENCBLK` (R120). -/
def encblkEffect (cfg : Cfg) (len : BitVec 5) (din : Lanes 20) (a : Arch) : Arch × Response :=
  let r := encryptBlock cfg a.S (operand din len)
  ({ a with S := r.1 }, okResponse r.2)

/-- `ENCLAST` (R121). -/
def enclastEffect (cfg : Cfg) (len : BitVec 5) (din : Lanes 20) (a : Arch) : Arch × Response :=
  let r := encryptLast cfg a.S (operand din len)
  ({ a with S := r.1, ddone := true }, okResponse r.2)

/-- `ENCBLK` on an instance with configuration `cfg`. -/
def encblkIn (cfg : Cfg) (len : BitVec 5) (din : Lanes 20) (s : State) : Host.Outcome State Fault Refusal :=
  .next (runChecked cfg (.encblk len din) (encblkEffect cfg len din) s)

/-- `ENCLAST` on an instance with configuration `cfg`. -/
def enclastIn (cfg : Cfg) (len : BitVec 5) (din : Lanes 20) (s : State) : Host.Outcome State Fault Refusal :=
  .next (runChecked cfg (.enclast len din) (enclastEffect cfg len din) s)

/-- `ENCBLK`. -/
def execEncblk (len : BitVec 5) (din : Lanes 20) (s : State) : Host.Outcome State Fault Refusal :=
  encblkIn Config.cfg len din s

/-- `ENCLAST`. -/
def execEnclast (len : BitVec 5) (din : Lanes 20) (s : State) : Host.Outcome State Fault Refusal :=
  enclastIn Config.cfg len din s

end Sys2Proof.Machine
end

