-- ==== Sys2Proof/Machine/Finalization.lean ====
section
/-! DEFINITION. Finalization, tag generation and tag verification: `FINENC`, `FINDEC`
(spec/45_finalization_tag.md). -/

namespace Sys2Proof.Machine

/-- `FinalizeCore` (R140). -/
def finalizeCore (cfg : Cfg) (k : KeyFile) (s : Sponge) : Sponge :=
  let m : Sponge :=
    { s with
      w1 := s.w1 ^^^ cfg.keyrot k.k0 k.k1
      w2 := s.w2 ^^^ cfg.keyrot k.k1 k.k2
      w3 := s.w3 ^^^ cfg.keyrot k.k2 0 }
  let p := permute cfg roundsA m
  { p with w3 := p.w3 ^^^ k.k1, w4 := p.w4 ^^^ k.k2 }

/-- The tag: the last two state words, `S[3]` first, little-endian (R140). -/
def tagBytes (s : Sponge) : List Byte := storeBytes s.w3 8 ++ storeBytes s.w4 8

/-- The comparison word `d = (S[3] ^ T0) | (S[4] ^ T1)` (R144). -/
def tagDifference (s : Sponge) (tag : List Byte) : W64 :=
  (s.w3 ^^^ loadBytes (tag.take 8)) ||| (s.w4 ^^^ loadBytes ((tag.drop 8).take 8))

/-- `FINENC` (R141). -/
def finencEffect (cfg : Cfg) (a : Arch) : Arch × Response :=
  ({ zeroizeSecrets a with phase := .finalized }, okResponse (tagBytes (finalizeCore cfg a.K a.S)))

/-- `FINDEC` with `LEN = 16` (R142): the one decision of the core that depends on data. -/
def findecVerify (cfg : Cfg) (din : Lanes 20) (a : Arch) : Arch × Response :=
  if tagDifference (finalizeCore cfg a.K a.S) (dinSlice din 0 16) = 0 then
    ({ zeroizeSecrets a with phase := .finalized, authOk := true }, okResponse [])
  else (authFailureEntry .tagMismatch a, authFailResponse)

/-- `FINDEC` with `LEN < 16` (R143): no permutation, no payload byte read. -/
def findecUndersized (a : Arch) : Arch × Response := (authFailureEntry .undersized a, authFailResponse)

/-- `FINDEC` (R142, R143). -/
def findecEffect (cfg : Cfg) (len : BitVec 5) (din : Lanes 20) (a : Arch) : Arch × Response :=
  if len = 16 then findecVerify cfg din a else findecUndersized a

/-- `FINENC` on an instance with configuration `cfg`. -/
def finencIn (cfg : Cfg) (len : BitVec 5) (s : State) : Host.Outcome State Fault Refusal :=
  .next (runChecked cfg (.finenc len) (finencEffect cfg) s)

/-- `FINDEC` on an instance with configuration `cfg`. -/
def findecIn (cfg : Cfg) (len : BitVec 5) (din : Lanes 20) (s : State) : Host.Outcome State Fault Refusal :=
  .next (runChecked cfg (.findec len din) (findecEffect cfg len din) s)

/-- `FINENC`. -/
def execFinenc (len : BitVec 5) (s : State) : Host.Outcome State Fault Refusal := finencIn Config.cfg len s

/-- `FINDEC`. -/
def execFindec (len : BitVec 5) (din : Lanes 20) (s : State) : Host.Outcome State Fault Refusal :=
  findecIn Config.cfg len din s

end Sys2Proof.Machine
end

