-- ==== Sys2Proof/Machine/Initialization.lean ====
section
/-! DEFINITION. State initialization: `INIT` (spec/41_initialization.md). -/

namespace Sys2Proof.Machine

/-- The state seeded from key, `IV` and nonce, before the permutation (R100). -/
def seed (cfg : Cfg) (k : KeyFile) (nonce : List Byte) : Sponge where
  w0 := k.k0 ^^^ cfg.iv
  w1 := k.k1
  w2 := k.k2
  w3 := loadBytes (nonce.take 8)
  w4 := loadBytes ((nonce.drop 8).take 8)

/-- `Initialize(K, nonce)` (R101). -/
def initSponge (cfg : Cfg) (k : KeyFile) (nonce : List Byte) : Sponge :=
  let t := permute cfg roundsA (seed cfg k nonce)
  { t with w2 := t.w2 ^^^ k.k0, w3 := t.w3 ^^^ k.k1, w4 := t.w4 ^^^ k.k2 }

/-- `INIT` (R100). -/
def initEffect (cfg : Cfg) (dir : Dir) (din : Lanes 20) (a : Arch) : Arch × Response :=
  ({ a with S := initSponge cfg a.K (dinSlice din 0 16), dir := dir, phase := .initialized }, okResponse [])

/-- `INIT` on an instance with configuration `cfg`. -/
def initIn (cfg : Cfg) (dir : Dir) (len : BitVec 5) (din : Lanes 20) (s : State) :
    Host.Outcome State Fault Refusal :=
  .next (runChecked cfg (.init dir len din) (initEffect cfg dir din) s)

/-- `INIT`. -/
def execInit (dir : Dir) (len : BitVec 5) (din : Lanes 20) (s : State) : Host.Outcome State Fault Refusal :=
  initIn Config.cfg dir len din s

end Sys2Proof.Machine
end

