-- ==== Sys2Proof/Machine/KeySchedule.lean ====
section
/-! DEFINITION. The key schedule: `LDKEY` (spec/40_key_schedule.md). -/

namespace Sys2Proof.Machine

/-- `LDKEY` (R90). -/
def ldkeyEffect (cfg : Cfg) (din : Lanes 20) (a : Arch) : Arch × Response :=
  ({ a with K := loadKey cfg (dinSlice din 0 20), kvalid := true }, okResponse [])

/-- `LDKEY` on an instance with configuration `cfg`. -/
def ldkeyIn (cfg : Cfg) (len : BitVec 5) (din : Lanes 20) (s : State) : Host.Outcome State Fault Refusal :=
  .next (runChecked cfg (.ldkey len din) (ldkeyEffect cfg din) s)

/-- `LDKEY`. -/
def execLdkey (len : BitVec 5) (din : Lanes 20) (s : State) : Host.Outcome State Fault Refusal :=
  ldkeyIn Config.cfg len din s

end Sys2Proof.Machine
end

