-- ==== Sys2Proof/Machine/System.lean ====
section
/-! DEFINITION. The system commands: `STAT`, `RDPT`, `SCRUB` (spec/46_system_commands.md). -/

namespace Sys2Proof.Machine

/-- The twelve bytes `STAT` returns: `STATUS`, `PLEN`, `PRD`, little-endian (R155). -/
def statBytes (cfg : Cfg) (a : Arch) : List Byte :=
  storeBytes ((status cfg.rate a).setWidth 64) 4 ++ storeBytes (a.plen.setWidth 64) 4 ++
    storeBytes (a.prd.setWidth 64) 4

/-- `STAT` (R155). -/
def statEffect (cfg : Cfg) (a : Arch) : Arch × Response := (a, okResponse (statBytes cfg a))

/-- `m = min(LEN, PLEN - PRD)` (R156); the difference of counts is zero where `PRD > PLEN` (log 11). -/
def readCount (len : BitVec 5) (a : Arch) : Nat := min len.toNat (a.plen.toNat - a.prd.toNat)

/-- `RDPT` (R156). -/
def rdptEffect (cfg : Cfg) (len : BitVec 5) (a : Arch) : Option (Arch × Response) :=
  match memRead cfg a.pbuf a.prd.toNat (readCount len a) with
  | some bs => some ({ a with prd := a.prd + BitVec.ofNat 32 (readCount len a) }, okResponse bs)
  | none => none

/-- `SCRUB` (R157). -/
def scrubEffect (a : Arch) : Arch × Response := (discardOperation a, okResponse [])

/-- `STAT` on an instance with configuration `cfg`. -/
def statIn (cfg : Cfg) (len : BitVec 5) (s : State) : Host.Outcome State Fault Refusal :=
  .next (runChecked cfg (.stat len) (statEffect cfg) s)

/-- `RDPT` on an instance with configuration `cfg`. -/
def rdptIn (cfg : Cfg) (len : BitVec 5) (s : State) : Host.Outcome State Fault Refusal :=
  runReading cfg (.rdpt len) (rdptEffect cfg len) s

/-- `SCRUB` on an instance with configuration `cfg`. -/
def scrubIn (cfg : Cfg) (len : BitVec 5) (s : State) : Host.Outcome State Fault Refusal :=
  .next (runChecked cfg (.scrub len) scrubEffect s)

/-- `STAT`. -/
def execStat (len : BitVec 5) (s : State) : Host.Outcome State Fault Refusal := statIn Config.cfg len s

/-- `RDPT`. -/
def execRdpt (len : BitVec 5) (s : State) : Host.Outcome State Fault Refusal := rdptIn Config.cfg len s

/-- `SCRUB`. -/
def execScrub (len : BitVec 5) (s : State) : Host.Outcome State Fault Refusal := scrubIn Config.cfg len s

end Sys2Proof.Machine
end

