-- ==== Sys2Proof/Machine/Dispatch.lean ====
section
/-! DEFINITION. One arm for each command: its meaning. -/

namespace Sys2Proof.Machine

def exec (i : Instr) (s : State) : Host.Outcome State Fault Refusal :=
  match i with
  | .stat len => Sys2Proof.Machine.execStat len s
  | .ldkey len din => Sys2Proof.Machine.execLdkey len din s
  | .init dir len din => Sys2Proof.Machine.execInit dir len din s
  | .adblk len din => Sys2Proof.Machine.execAdblk len din s
  | .adlast len din => Sys2Proof.Machine.execAdlast len din s
  | .encblk len din => Sys2Proof.Machine.execEncblk len din s
  | .enclast len din => Sys2Proof.Machine.execEnclast len din s
  | .decblk len din => Sys2Proof.Machine.execDecblk len din s
  | .declast len din => Sys2Proof.Machine.execDeclast len din s
  | .finenc len => Sys2Proof.Machine.execFinenc len s
  | .findec len din => Sys2Proof.Machine.execFindec len din s
  | .rdpt len => Sys2Proof.Machine.execRdpt len s
  | .scrub len => Sys2Proof.Machine.execScrub len s

end Sys2Proof.Machine
end

