-- ==== Sys2Proof/Machine/Step.lean ====
section
/-! DEFINITION. One step: the core takes the oldest event the host presents. A command that decodes is
executed, one that does not raises its fault, a reset resets, and with no event waiting nothing happens
(R62, R193, R220; log 1, log 3). -/

namespace Sys2Proof.Machine

/-- The machine's step. -/
def step (s : State) : Host.Outcome State Fault Refusal :=
  match s.inbox with
  | [] => .next s
  | .reset :: rest => .next { s.hardwareReset with inbox := rest }
  | .command c :: rest =>
    match decode c with
    | .ok i => exec i { s with inbox := rest }
    | .error e => .next (State.rejectHeader e { s with inbox := rest })

/-- `s` with the command whose bits are `w` next to be accepted (log 8, log 9). -/
def State.withFetchWord (s : State) (nbits w : Nat) : State :=
  { s with inbox := .command (Command.ofBits (w % 2 ^ nbits)) :: s.inbox }

end Sys2Proof.Machine
end

