-- ==== Sys2Proof/Machine/Instances.lean ====
section
/-! DEFINITION. Instances with a configuration of their own (R8: `CFG` is an argument of the step), and the
product of several instances (R207). The machine of Step.lean is the instance with `Config.cfg`. -/

namespace Sys2Proof.Machine

/-- The meaning of a command on an instance with configuration `cfg`. -/
def execIn (cfg : Cfg) (i : Instr) (s : State) : Host.Outcome State Fault Refusal :=
  match i with
  | .stat len => statIn cfg len s
  | .ldkey len din => ldkeyIn cfg len din s
  | .init dir len din => initIn cfg dir len din s
  | .adblk len din => adblkIn cfg len din s
  | .adlast len din => adlastIn cfg len din s
  | .encblk len din => encblkIn cfg len din s
  | .enclast len din => enclastIn cfg len din s
  | .decblk len din => decblkIn cfg len din s
  | .declast len din => declastIn cfg len din s
  | .finenc len => finencIn cfg len s
  | .findec len din => findecIn cfg len din s
  | .rdpt len => rdptIn cfg len s
  | .scrub len => scrubIn cfg len s

/-- One step of an instance with configuration `cfg`. -/
def stepIn (cfg : Cfg) (s : State) : Host.Outcome State Fault Refusal :=
  match s.inbox with
  | [] => .next s
  | .reset :: rest => .next { s.hardwareReset with inbox := rest }
  | .command c :: rest =>
    match decode c with
    | .ok i => execIn cfg i { s with inbox := rest }
    | .error e => .next (State.rejectHeader e { s with inbox := rest })

/-- `n` steps of an instance with configuration `cfg`, ending at the first stop (R228). -/
def runIn (cfg : Cfg) : Nat → State → Host.Outcome State Fault Refusal
  | 0, s => .next s
  | n + 1, s =>
    match stepIn cfg s with
    | .next t => runIn cfg n t
    | .fault f => .fault f
    | .refused r => .refused r

/-- One step of instance `k` of several (R207): the others keep their state. -/
def stepInstance (k : Nat) (cores : List (Cfg × State)) :
    Host.Outcome (List (Cfg × State)) Fault Refusal :=
  match cores[k]? with
  | none => .next cores
  | some (cfg, s) =>
    match stepIn cfg s with
    | .next t => .next (cores.set k (cfg, t))
    | .fault f => .fault f
    | .refused r => .refused r

end Sys2Proof.Machine
end

