-- ==== Sys2Proof/Machine/Facade.lean ====
section
/-! DEFINITION. Whole operations (spec/47_facade_sequences.md): cutting a string into blocks (R172), the
functions on whole strings (R113, R122, R132, R170, R171), the pseudo-commands as command lists (R81, R170,
R171), and what the host collects from the responses. -/

namespace Sys2Proof.Machine

/-- The full blocks of `SPLIT(x)` (R172). -/
def fullBlocks (rate : Rate) (x : List Byte) : List (List Byte) :=
  (List.range (x.length / rate.bytes)).map (fun j => (x.drop (j * rate.bytes)).take rate.bytes)

/-- The last block of `SPLIT(x)`, possibly empty (R172). -/
def lastBlock (rate : Rate) (x : List Byte) : List Byte := x.drop (x.length / rate.bytes * rate.bytes)

/-! The functions on whole strings. -/

/-- `AbsorbAD` (R113). -/
def absorbAD (cfg : Cfg) (s : Sponge) (ad : List Byte) : Sponge :=
  absorbLast cfg ((fullBlocks cfg.rate ad).foldl (absorbBlock cfg) s) (lastBlock cfg.rate ad)

/-- The full blocks of a plaintext or a ciphertext, threading the state and joining the outputs. -/
def threadBlocks (f : Sponge → List Byte → Sponge × List Byte) : Sponge → List (List Byte) → Sponge × List Byte
  | s, [] => (s, [])
  | s, b :: bs =>
    let r := f s b
    let t := threadBlocks f r.1 bs
    (t.1, r.2 ++ t.2)

/-- `ProcessEncrypt` (R122). -/
def processEncrypt (cfg : Cfg) (s : Sponge) (pt : List Byte) : Sponge × List Byte :=
  let r := threadBlocks (encryptBlock cfg) s (fullBlocks cfg.rate pt)
  let t := encryptLast cfg r.1 (lastBlock cfg.rate pt)
  (t.1, r.2 ++ t.2)

/-- `ProcessDecrypt` (R132). -/
def processDecrypt (cfg : Cfg) (s : Sponge) (ct : List Byte) : Sponge × List Byte :=
  let r := threadBlocks (decryptBlock cfg) s (fullBlocks cfg.rate ct)
  let t := decryptLast cfg r.1 (lastBlock cfg.rate ct)
  (t.1, r.2 ++ t.2)

/-- The state of an operation when its associated data has been absorbed (R170: `S2`). -/
def stateAfterAD (cfg : Cfg) (key nonce ad : List Byte) : Sponge :=
  absorbAD cfg (initSponge cfg (loadKey cfg key) nonce) ad

/-- `encrypt(key, nonce, ad, pt)` as a pure function (R170): body and tag. -/
def encryptMessage (cfg : Cfg) (key nonce ad pt : List Byte) : List Byte :=
  let r := processEncrypt cfg (stateAfterAD cfg key nonce ad) pt
  r.2 ++ tagBytes (finalizeCore cfg (loadKey cfg key) r.1)

/-- `decrypt(key, nonce, ad, ct)` as a pure function (R171); `none` is `AuthenticationFailure`. -/
def decryptMessage (cfg : Cfg) (key nonce ad ct : List Byte) : Option (List Byte) :=
  if ct.length < 16 then none
  else
    let r := processDecrypt cfg (stateAfterAD cfg key nonce ad) (ct.take (ct.length - 16))
    if tagBytes (finalizeCore cfg (loadKey cfg key) r.1) = ct.drop (ct.length - 16) then some r.2 else none

/-! The pseudo-commands. -/

/-- Payload lanes that begin with `bs`, the rest zero (R72: they are not read). -/
def lanes20 (bs : List Byte) : Lanes 20 := ⟨(bs ++ List.replicate 20 0).take 20, by simp⟩

/-- `LEN` of a byte string (R80). -/
def lenOf (bs : List Byte) : BitVec 5 := BitVec.ofNat 5 bs.length

/-- `AD <hex>` (R81). -/
def adCommands (rate : Rate) (ad : List Byte) : List Instr :=
  (fullBlocks rate ad).map (fun b => .adblk (lenOf b) (lanes20 b)) ++
    [.adlast (lenOf (lastBlock rate ad)) (lanes20 (lastBlock rate ad))]

/-- `ENC <hex>` (R81). -/
def encCommands (rate : Rate) (pt : List Byte) : List Instr :=
  (fullBlocks rate pt).map (fun b => .encblk (lenOf b) (lanes20 b)) ++
    [.enclast (lenOf (lastBlock rate pt)) (lanes20 (lastBlock rate pt))]

/-- `DEC <hex>` (R81). -/
def decCommands (rate : Rate) (ct : List Byte) : List Instr :=
  (fullBlocks rate ct).map (fun b => .decblk (lenOf b) (lanes20 b)) ++
    [.declast (lenOf (lastBlock rate ct)) (lanes20 (lastBlock rate ct))]

/-- `ENCRYPT(key, nonce, ad, pt)` (R170). -/
def encryptCommands (rate : Rate) (key nonce ad pt : List Byte) : List Instr :=
  [.ldkey (lenOf key) (lanes20 key), .init .enc (lenOf nonce) (lanes20 nonce)] ++ adCommands rate ad ++
    encCommands rate pt ++ [.finenc 0, .scrub 0]

/-- `DECRYPT(key, nonce, ad, ct)` up to and including its `FINDEC` (R171). -/
def decryptCommands (rate : Rate) (key nonce ad ct : List Byte) : List Instr :=
  if ct.length < 16 then [.findec (lenOf ct) (lanes20 ct)]
  else
    [.ldkey (lenOf key) (lanes20 key), .init .dec (lenOf nonce) (lanes20 nonce)] ++ adCommands rate ad ++
      decCommands rate (ct.take (ct.length - 16)) ++ [.findec 16 (lanes20 (ct.drop (ct.length - 16)))]

/-- The `RDPT 16` commands of R171 for a plaintext of `n` bytes: one for each started 16 bytes, and the one
that answers `DOUT_LEN = 0` (log 20). -/
def readCommands (n : Nat) : List Instr := List.replicate ((n + 15) / 16 + 1) (.rdpt 16)

/-- The events with which a host presents a list of commands. -/
def hostEvents (is : List Instr) : List HostEvent := is.map (fun i => .command (encode i))

/-- The result bytes of a response: `DOUT[0..DOUT_LEN-1]` (R73). -/
def Response.bytes (r : Response) : List Byte := r.dout.val.take r.doutLen.toNat

/-- The bytes a host collects from a list of responses. -/
def collect (rs : List Response) : List Byte := rs.flatMap Response.bytes

end Sys2Proof.Machine
end

