-- ==== Sys2Proof/Safety.lean ====
section
/-! DEFINITION. What the claims are stated in terms of: the invariant of reachable states (R37), well-formed
responses (R73), what is public (R225), and reachability. -/

namespace Sys2Proof.Machine

/-- A response has the form of R73: at most 16 result bytes, zero lanes beyond them, and no result unless
`RSP` is `OK`. -/
def Response.WellFormed (r : Response) : Prop :=
  r.doutLen.toNat ≤ 16 ∧ (∀ k, r.doutLen.toNat ≤ k → k < 16 → r.dout.val[k]? = some 0) ∧
    (r.rsp ≠ .ok → r.doutLen = 0)

/-- A response without a result: every lane zero (R73). -/
def emptyResponse (r : Rsp) : Response := ⟨r, 0, ⟨List.replicate 16 0, by simp⟩⟩

/-- The state R192 leaves after a fault with code `c`: the reset state but for `PHASE`, `ERR` and `ERRCODE`,
and the response `FAULT`. -/
def State.faulted (c : FaultCode) (s : State) : State where
  toArch := { Arch.reset with phase := .finalized, err := true, errCode := some c }
  inbox := s.inbox
  outbox := s.outbox ++ [emptyResponse .fault]

/-- The legal lengths of R74 by opcode number, read from its table a second time. -/
def legalLength (rate op len : Nat) : Prop :=
  ((op = 0 ∨ op = 9 ∨ op = 12) ∧ len = 0) ∨ (op = 1 ∧ len = 20) ∨ (op = 2 ∧ len = 16) ∨
    ((op = 3 ∨ op = 5 ∨ op = 7) ∧ len = rate) ∨ ((op = 4 ∨ op = 6 ∨ op = 8) ∧ len < rate) ∨
    (op = 10 ∧ len ≤ 16) ∨ (op = 11 ∧ 1 ≤ len ∧ len ≤ 16)

/-- The acceptance table of R25 by opcode number, read a second time. -/
def acceptance (a : Arch) (op len : Nat) : Prop :=
  op = 0 ∨ op = 12 ∨
    (op = 1 ∧ a.phase = .uninitialized ∧ a.kvalid = false) ∨
    (op = 2 ∧ a.phase = .uninitialized ∧ a.kvalid = true) ∨
    ((op = 3 ∨ op = 4) ∧ (a.phase = .initialized ∨ a.phase = .absorbingAD)) ∨
    ((op = 5 ∨ op = 6) ∧ a.phase = .processing ∧ a.ddone = false ∧ a.dir = .enc) ∨
    ((op = 7 ∨ op = 8) ∧ a.phase = .processing ∧ a.ddone = false ∧ a.dir = .dec) ∨
    (op = 9 ∧ a.phase = .processing ∧ a.ddone = true ∧ a.dir = .enc) ∨
    (op = 10 ∧ len = 16 ∧ a.phase = .processing ∧ a.ddone = true ∧ a.dir = .dec) ∨
    (op = 10 ∧ len < 16 ∧ (a.phase = .uninitialized ∨ (a.dir = .dec ∧ a.phase ≠ .finalized))) ∨
    (op = 11 ∧ a.phase = .finalized ∧ a.authOk = true)

/-- Region byte `i` (R54): byte `i mod 8` of `S[i div 8]`, for the words the region can hold. -/
def regionByte (s : Sponge) (i : Nat) : Byte :=
  (if i < 8 then s.w0 else s.w1).extractLsb' (8 * (i % 8)) 8

/-- The clauses of R37 (clause (a) holds by the type of `PHASE`), on an instance with configuration `cfg`. -/
structure Arch.R37 (cfg : Cfg) (a : Arch) : Prop where
  keyNotFinalized : a.kvalid = true → a.phase ≠ .finalized
  uninitialized : a.phase = .uninitialized →
    a.S = Sponge.zero ∧ a.dir = .enc ∧ a.ddone = false ∧ a.authOk = false ∧ a.authFail = false ∧
      a.err = false ∧ a.plen = 0 ∧ a.prd = 0 ∧ a.pbuf = []
  finalized : a.phase = .finalized → a.S = Sponge.zero ∧ a.K = KeyFile.zero ∧ a.kvalid = false
  ddone : a.ddone = true → a.phase = .processing ∨ a.phase = .finalized
  authOk : a.authOk = true → a.phase = .finalized ∧ a.dir = .dec ∧ a.err = false
  authFail : a.authFail = true → a.phase = .finalized ∧ a.plen = 0 ∧ a.pbuf = [] ∧ a.err = false
  err : a.err = true → ∃ c, a.errCode = some c ∧
    a = { Arch.reset with phase := .finalized, err := true, errCode := some c }
  encrypting : a.dir = .enc → a.plen = 0 ∧ a.pbuf = []
  counts : a.prd.toNat ≤ a.plen.toNat ∧ a.plen.toNat ≤ cfg.pbufBytes.val

/-- The invariant a step keeps: R37, and what it needs beside it. -/
structure Arch.Inv (cfg : Cfg) (a : Arch) : Prop extends Arch.R37 cfg a where
  /-- The hold buffer keeps its canonical form. -/
  pbufWf : a.pbuf.wf = true
  /-- Nothing is held at or beyond `PLEN`. -/
  pbufHeld : ∀ k, a.plen.toNat ≤ k → a.pbuf.read k = 0
  /-- A key register that holds no loaded key holds zero (R22, R26). -/
  noKey : a.kvalid = false → a.K = KeyFile.zero
  /-- A started operation has its key (R25). -/
  started : a.phase ≠ .uninitialized → a.phase ≠ .finalized → a.kvalid = true
  /-- `ERRCODE = 0` whenever `ERR = 0` (R30). -/
  noCode : a.err = false → a.errCode = none
  /-- `AUTHCAUSE` is 0 unless `AUTH_FAIL = 1` (R29). -/
  noCause : a.authFail = false → a.authCause = .tagMismatch
  /-- At most one of `AUTH_OK`, `AUTH_FAIL` is 1 (R29). -/
  oneOutcome : ¬(a.authOk = true ∧ a.authFail = true)
  /-- `PRD` moves only after a successful `FINDEC` (R32, R156). -/
  noneRead : a.authOk = false → a.prd = 0

/-- A safe state of the machine: the invariant, and every response given so far well-formed. -/
structure State.Inv (s : State) : Prop where
  arch : s.toArch.Inv Config.cfg
  responses : ∀ r ∈ s.outbox, r.WellFormed

/-- The states a run from reset reaches, whatever the host presents (R37, R228). -/
inductive Reachable : State → Prop where
  | start (events : List HostEvent) : Reachable { State.reset with inbox := events }
  | step (s t : State) : Reachable s → Machine.step s = .next t → Reachable t

/-- The public part of the state (R225): the phase, the flags and the two counts. -/
structure PublicView where
  phase : Phase
  kvalid : Bool
  dir : Dir
  ddone : Bool
  authOk : Bool
  authFail : Bool
  authCause : AuthCause
  err : Bool
  errCode : Option FaultCode
  plen : BitVec 32
  prd : BitVec 32
deriving DecidableEq, Repr

/-- What is public of an architectural state (R225). -/
def Arch.publicView (a : Arch) : PublicView where
  phase := a.phase
  kvalid := a.kvalid
  dir := a.dir
  ddone := a.ddone
  authOk := a.authOk
  authFail := a.authFail
  authCause := a.authCause
  err := a.err
  errCode := a.errCode
  plen := a.plen
  prd := a.prd

/-- What is public of a response: everything but the bytes of its result. -/
def Response.publicView (r : Response) : Rsp × BitVec 5 := (r.rsp, r.doutLen)

end Sys2Proof.Machine
end

