-- ==== Sys2Proof/Certificates/Slice0/Obligations.lean ====
section
/-! DEFINITION. The statements about the core. Each docstring names the rule of spec/ it formalises. -/

open Sys2Proof Sys2Proof.Machine

/-! Encoding. -/

/-- R71, R75: the header and the payload lanes of every command decode to that command, whatever its operands. -/
def Obligations.DecodeInvertsEncode : Prop :=
  ∀ i : Instr, decode (encode i) = .ok i

/-- R71, R72: a command that decodes is encoded with the header it came from, and with the payload it came
from unless it is one of the four commands that read none. -/
def Obligations.EncodeInvertsDecode : Prop :=
  ∀ (c : Command) (i : Instr), decode c = .ok i →
    (encode i).header = c.header ∧
      (opField c.header ≠ 0x0 → opField c.header ≠ 0x9 → opField c.header ≠ 0xB → opField c.header ≠ 0xC →
        (encode i).din = c.din)

/-- R75: a header that decodes selects exactly one row of the table, the row of the command it decodes to;
a header that does not decode selects none. -/
def Obligations.DecoderSelectsTheTableRow : Prop :=
  ∀ c : Command,
    (∀ i, decode c = .ok i → (OpRow.selectedBy c.header).map OpRow.mnemonic = [i.mnemonic]) ∧
      (∀ e, decode c = .error e → OpRow.selectedBy c.header = [])

/-- R76, R78: decoding looks at the header and the rate only, and either names a command whose `LEN` is legal or
one of the three header fault codes; which of them each header gets, in the order of R76. -/
def Obligations.DecodingIsTotalOverHeaders : Prop :=
  ∀ (rate : Rate) (c : Command),
    let h := c.header
    let op := (opField h).toNat
    let len := (lenField h).toNat
    (rsvField h ≠ 0 → classify rate c = .error .reservedBits) ∧
    (rsvField h = 0 → 13 ≤ op → classify rate c = .error .illegalOp) ∧
    (rsvField h = 0 → op < 13 → dirField h = 1 → op ≠ 2 → classify rate c = .error .reservedBits) ∧
    (rsvField h = 0 → op < 13 → (dirField h = 1 → op = 2) → ¬legalLength rate.bytes op len →
      classify rate c = .error .badLen) ∧
    (rsvField h = 0 → op < 13 → (dirField h = 1 → op = 2) → legalLength rate.bytes op len →
      ∃ i, classify rate c = .ok i ∧ decode c = .ok i ∧ i.opcode = opField h ∧ i.len = lenField h ∧
        i.dirBit = dirField h) ∧
    ((∃ i, classify rate c = .ok i ∧ i.len = lenField c.header ∧ i.opcode = opField c.header ∧
        legalLength rate.bytes (opField c.header).toNat (lenField c.header).toNat) ∨
      classify rate c = .error .reservedBits ∨ classify rate c = .error .illegalOp ∨
      classify rate c = .error .badLen) ∧
    ∀ (c' : Command) (e : FaultCode), c'.header = c.header → classify rate c = .error e →
      classify rate c' = .error e

/-- Words written out from R71 and R80: one of each shape. -/
def Obligations.SampleHeadersDecode : Prop :=
  decodeTableWord 16 0b0000000000000000 = some (.stat 0) ∧
    decodeTableWord 16 0b0000000101000001 = some (.ldkey 20 Lanes.zero20) ∧
    decodeTableWord 16 0b0000000100000010 = some (.init .enc 16 Lanes.zero20) ∧
    decodeTableWord 16 0b0000001100000010 = some (.init .dec 16 Lanes.zero20) ∧
    decodeTableWord 16 0b0000000000110100 = some (.adlast 3 Lanes.zero20) ∧
    decodeTableWord 16 0b0000000010000101 = some (.encblk 8 Lanes.zero20) ∧
    decodeTableWord 16 0b0000000100001011 = some (.rdpt 16) ∧
    decodeTableWord 16 0b0000000000001101 = none ∧
    decodeTableWord 16 0b0000010000000000 = none

/-! The step. -/

/-- R62, R70: when the oldest event is a command that decodes to `i`, the step is the meaning of `i` on the state
whose port has accepted that command. -/
def Obligations.StepRunsTheDecodedCommand : Prop :=
  ∀ (s : State) (c : Command) (i : Instr) (rest : List HostEvent),
    s.inbox = .command c :: rest → decode c = .ok i → step s = exec i { s with inbox := rest }

/-- R228 (log 1): with no event waiting the step changes nothing. -/
def Obligations.IdleStepChangesNothing : Prop :=
  ∀ s : State, s.inbox = [] → step s = .next s

/-- R8: the machine is the instance whose configuration is `Config.cfg`. -/
def Obligations.MachineIsTheConfiguredInstance : Prop :=
  (∀ (i : Instr) (s : State), exec i s = execIn Config.cfg i s) ∧
    (∀ s : State, step s = stepIn Config.cfg s) ∧
    ∀ (n : Nat) (s : State), Host.Core.run Sys2Proof.core n s = runIn Config.cfg n s

/-- R193 with R192: the checks in their order, the first that fails deciding; a command that passes them all is
executed and answers `OK`, or `AUTH_FAIL` for `FINDEC`. -/
def Obligations.ChecksAreMadeInOrder : Prop :=
  ∀ (s : State) (c : Command) (rest : List HostEvent), s.inbox = .command c :: rest →
    let h := c.header
    let op := (opField h).toNat
    let len := (lenField h).toNat
    let u : State := { s with inbox := rest }
    (s.err = true → h ≠ 0x0000 → h ≠ 0x000C →
      step s = .next { u with outbox := s.outbox ++ [emptyResponse .fault] }) ∧
    (s.err = false → rsvField h ≠ 0 → step s = .next (u.faulted .reservedBits)) ∧
    (s.err = false → rsvField h = 0 → 13 ≤ op → step s = .next (u.faulted .illegalOp)) ∧
    (s.err = false → rsvField h = 0 → op < 13 → dirField h = 1 → op ≠ 2 →
      step s = .next (u.faulted .reservedBits)) ∧
    (s.err = false → rsvField h = 0 → op < 13 → (dirField h = 1 → op = 2) →
      ¬legalLength Config.cfg.rate.bytes op len → step s = .next (u.faulted .badLen)) ∧
    (s.err = false → rsvField h = 0 → op < 13 → (dirField h = 1 → op = 2) →
      legalLength Config.cfg.rate.bytes op len → ¬acceptance s.toArch op len →
      step s = .next (u.faulted .badPhase)) ∧
    (s.err = false → rsvField h = 0 → op < 13 → (dirField h = 1 → op = 2) →
      legalLength Config.cfg.rate.bytes op len → acceptance s.toArch op len → (op = 7 ∨ op = 8) →
      Config.cfg.pbufBytes.val < s.plen.toNat + len → step s = .next (u.faulted .pbufOverflow)) ∧
    (s.err = false → rsvField h = 0 → op < 13 → (dirField h = 1 → op = 2) →
      legalLength Config.cfg.rate.bytes op len → acceptance s.toArch op len →
      (op = 7 ∨ op = 8 → s.plen.toNat + len ≤ Config.cfg.pbufBytes.val) →
      ∃ i, decode c = .ok i ∧ step s = exec i u ∧
        ∀ t, step s = .next t → ∃ r, t.outbox = s.outbox ++ [r] ∧
          (r.rsp = .ok ∨ (op = 10 ∧ r.rsp = .authFail)))

/-- R195: while `ERR = 1` the headers `0x0000` and `0x000C` are served, and every other header is answered
`FAULT` and changes nothing. -/
def Obligations.ErrorStateServesTwoHeaders : Prop :=
  ∀ (s : State) (c : Command) (rest : List HostEvent), s.inbox = .command c :: rest → s.err = true →
    (c.header = 0x0000 → step s = exec (.stat 0) { s with inbox := rest } ∧
      ∃ r, step s = .next { s with inbox := rest, outbox := s.outbox ++ [r] } ∧ r.rsp = .ok ∧ r.doutLen = 12) ∧
    (c.header = 0x000C → step s = .next
      { toArch := Arch.reset, inbox := rest, outbox := s.outbox ++ [emptyResponse .ok] }) ∧
    (c.header ≠ 0x0000 → c.header ≠ 0x000C →
      step s = .next { s with inbox := rest, outbox := s.outbox ++ [emptyResponse .fault] })

/-- R73: every accepted command produces exactly one response, of the form R73 gives, and takes nothing else from
the port. -/
def Obligations.OneResponsePerCommand : Prop :=
  ∀ (s t : State) (c : Command) (rest : List HostEvent),
    s.inbox = .command c :: rest → step s = .next t →
      t.inbox = rest ∧ ∃ r, t.outbox = s.outbox ++ [r] ∧ r.WellFormed

/-! Reset. -/

/-- R36: the reset values, element by element, and what `STATUS` shows at each rate. -/
def Obligations.ResetValues : Prop :=
  State.reset.S = ⟨0, 0, 0, 0, 0⟩ ∧ State.reset.K = ⟨0, 0, 0⟩ ∧ State.reset.phase = .uninitialized ∧
    State.reset.kvalid = false ∧ State.reset.dir = .enc ∧ State.reset.ddone = false ∧
    State.reset.authOk = false ∧ State.reset.authFail = false ∧ State.reset.authCause = .tagMismatch ∧
    State.reset.err = false ∧ State.reset.errCode = none ∧ State.reset.plen = 0 ∧ State.reset.prd = 0 ∧
    (∀ k, State.reset.pbuf.read k = 0) ∧ status .r8 Arch.reset = 0x00000000 ∧
    status .r16 Arch.reset = 0x00004000

/-- R221: reset and `SCRUB` put every state to the reset state; `SCRUB` answers `OK`, reset answers nothing. -/
def Obligations.ScrubAndResetHaveTheSameEffect : Prop :=
  ∀ (s : State) (rest : List HostEvent),
    exec (.scrub 0) s =
      .next { toArch := Arch.reset, inbox := s.inbox, outbox := s.outbox ++ [emptyResponse .ok] } ∧
    (s.inbox = .reset :: rest →
      step s = .next { toArch := Arch.reset, inbox := rest, outbox := s.outbox })

/-! The commands: what each does when it is accepted, and where it faults. -/

/-- R155: `STAT` is accepted always and returns `STATUS`, `PLEN` and `PRD`; nothing else changes. A `LEN` that is
not 0 faults. -/
def Obligations.StatReturnsStatusAndCounts : Prop :=
  ∀ (len : BitVec 5) (s : State),
    (encode (.stat 0)).header = 0x0000 ∧
    exec (.stat 0) s = .next { s with
      outbox := s.outbox ++ [{
        rsp := .ok
        doutLen := 12
        dout := lanes16 (storeBytes ((status Config.cfg.rate s.toArch).setWidth 64) 4 ++
          storeBytes (s.plen.setWidth 64) 4 ++ storeBytes (s.prd.setWidth 64) 4) }] } ∧
    (len ≠ 0 → s.err = false → exec (.stat len) s = .next (s.faulted .badLen))

/-- R90: `LDKEY`. The form of `K[0]` is the spec's reading, which R90 marks as its own. -/
def Obligations.LdkeyLoadsTheKey : Prop :=
  ∀ (len : BitVec 5) (din : Lanes 20) (s : State), s.err = false →
    (encode (.ldkey 20 din)).header = 0x0141 ∧
    (len ≠ 20 → exec (.ldkey len din) s = .next (s.faulted .badLen)) ∧
    (len = 20 → (s.phase ≠ .uninitialized ∨ s.kvalid = true) →
      exec (.ldkey len din) s = .next (s.faulted .badPhase)) ∧
    (len = 20 → s.phase = .uninitialized → s.kvalid = false →
      exec (.ldkey len din) s = .next { s with
        K := ⟨Config.keyrot 0 (loadBytes (dinSlice din 0 4)), loadBytes (dinSlice din 4 8),
          loadBytes (dinSlice din 12 8)⟩
        kvalid := true
        outbox := s.outbox ++ [emptyResponse .ok] })

/-- R100: `INIT`, for both directions. -/
def Obligations.InitSeedsTheState : Prop :=
  ∀ (dir : Dir) (len : BitVec 5) (din : Lanes 20) (s : State), s.err = false →
    (encode (.init .enc 16 din)).header = 0x0102 ∧ (encode (.init .dec 16 din)).header = 0x0302 ∧
    (len ≠ 16 → exec (.init dir len din) s = .next (s.faulted .badLen)) ∧
    (len = 16 → (s.phase ≠ .uninitialized ∨ s.kvalid = false) →
      exec (.init dir len din) s = .next (s.faulted .badPhase)) ∧
    (len = 16 → s.phase = .uninitialized → s.kvalid = true →
      let t := Config.perm ⟨s.K.k0 ^^^ Config.iv, s.K.k1, s.K.k2, loadBytes (dinSlice din 0 8),
        loadBytes (dinSlice din 8 8)⟩ 12
      exec (.init dir len din) s = .next { s with
        S := ⟨t.w0, t.w1, t.w2 ^^^ s.K.k0, t.w3 ^^^ s.K.k1, t.w4 ^^^ s.K.k2⟩
        dir := dir
        phase := .initialized
        outbox := s.outbox ++ [emptyResponse .ok] })

/-- R110: `ADBLK`. -/
def Obligations.AdblkAbsorbsABlock : Prop :=
  ∀ (len : BitVec 5) (din : Lanes 20) (s : State), s.err = false →
    (encode (.adblk 8 din)).header = 0x0083 ∧ (encode (.adblk 16 din)).header = 0x0103 ∧
    (len.toNat ≠ Config.rate.bytes → exec (.adblk len din) s = .next (s.faulted .badLen)) ∧
    (len.toNat = Config.rate.bytes → s.phase ≠ .initialized → s.phase ≠ .absorbingAD →
      exec (.adblk len din) s = .next (s.faulted .badPhase)) ∧
    (len.toNat = Config.rate.bytes → (s.phase = .initialized ∨ s.phase = .absorbingAD) →
      exec (.adblk len din) s = .next { s with
        S := Config.perm (xorRegion (dinSlice din 0 Config.rate.bytes) s.S) Config.rate.roundsB
        phase := .absorbingAD
        outbox := s.outbox ++ [emptyResponse .ok] })

/-- R111 with R112: `ADLAST`. -/
def Obligations.AdlastPadsAndSeparates : Prop :=
  ∀ (len : BitVec 5) (din : Lanes 20) (s : State), s.err = false →
    (encode (.adlast len din)).header = 0x0004 ||| (len.setWidth 16 <<< 4) ∧
    (Config.rate.bytes ≤ len.toNat → exec (.adlast len din) s = .next (s.faulted .badLen)) ∧
    (len.toNat < Config.rate.bytes → s.phase ≠ .initialized → s.phase ≠ .absorbingAD →
      exec (.adlast len din) s = .next (s.faulted .badPhase)) ∧
    (len.toNat < Config.rate.bytes → (s.phase = .initialized ∨ s.phase = .absorbingAD) →
      let p := Config.perm
        (padRegion Config.cfg len.toNat (xorRegion (dinSlice din 0 len.toNat) s.S)) Config.rate.roundsB
      exec (.adlast len din) s = .next { s with
        S := setWord p Config.dsepWord
          (wordAt p Config.dsepWord ^^^ ((1 : W64) <<< Config.dsepBit.val))
        phase := .processing
        outbox := s.outbox ++ [emptyResponse .ok] })

/-- R120: `ENCBLK`. -/
def Obligations.EncblkEncryptsABlock : Prop :=
  ∀ (len : BitVec 5) (din : Lanes 20) (s : State), s.err = false →
    (encode (.encblk 8 din)).header = 0x0085 ∧ (encode (.encblk 16 din)).header = 0x0105 ∧
    (len.toNat ≠ Config.rate.bytes → exec (.encblk len din) s = .next (s.faulted .badLen)) ∧
    (len.toNat = Config.rate.bytes → ¬(s.phase = .processing ∧ s.ddone = false ∧ s.dir = .enc) →
      exec (.encblk len din) s = .next (s.faulted .badPhase)) ∧
    (len.toNat = Config.rate.bytes → s.phase = .processing → s.ddone = false → s.dir = .enc →
      let x := xorRegion (dinSlice din 0 Config.rate.bytes) s.S
      exec (.encblk len din) s = .next { s with
        S := Config.perm x Config.rate.roundsB
        outbox := s.outbox ++ [{
          rsp := .ok
          doutLen := BitVec.ofNat 5 Config.rate.bytes
          dout := lanes16 (regionBytes Config.rate.bytes x) }] })

/-- R121: `ENCLAST`. -/
def Obligations.EnclastEncryptsTheLastBlock : Prop :=
  ∀ (len : BitVec 5) (din : Lanes 20) (s : State), s.err = false →
    (encode (.enclast len din)).header = 0x0006 ||| (len.setWidth 16 <<< 4) ∧
    (Config.rate.bytes ≤ len.toNat → exec (.enclast len din) s = .next (s.faulted .badLen)) ∧
    (len.toNat < Config.rate.bytes → ¬(s.phase = .processing ∧ s.ddone = false ∧ s.dir = .enc) →
      exec (.enclast len din) s = .next (s.faulted .badPhase)) ∧
    (len.toNat < Config.rate.bytes → s.phase = .processing → s.ddone = false → s.dir = .enc →
      let x := padRegion Config.cfg len.toNat (xorRegion (dinSlice din 0 len.toNat) s.S)
      exec (.enclast len din) s = .next { s with
        S := x
        ddone := true
        outbox := s.outbox ++ [{ rsp := .ok, doutLen := len, dout := lanes16 (regionBytes len.toNat x) }] })

/-- R130: `DECBLK`, on every instance and on the machine. -/
def Obligations.DecblkDecryptsABlock : Prop :=
  (∀ (len : BitVec 5) (din : Lanes 20) (s : State), exec (.decblk len din) s = execIn Config.cfg (.decblk len din) s) ∧
  ∀ (cfg : Cfg) (len : BitVec 5) (din : Lanes 20) (s : State), s.err = false →
    (encode (.decblk 8 din)).header = 0x0087 ∧ (encode (.decblk 16 din)).header = 0x0107 ∧
    (len.toNat ≠ cfg.rate.bytes → execIn cfg (.decblk len din) s = .next (s.faulted .badLen)) ∧
    (len.toNat = cfg.rate.bytes → ¬(s.phase = .processing ∧ s.ddone = false ∧ s.dir = .dec) →
      execIn cfg (.decblk len din) s = .next (s.faulted .badPhase)) ∧
    (len.toNat = cfg.rate.bytes → s.phase = .processing → s.ddone = false → s.dir = .dec →
      cfg.pbufBytes.val < s.plen.toNat + cfg.rate.bytes →
      execIn cfg (.decblk len din) s = .next (s.faulted .pbufOverflow)) ∧
    (len.toNat = cfg.rate.bytes → s.phase = .processing → s.ddone = false → s.dir = .dec →
      s.plen.toNat + cfg.rate.bytes ≤ cfg.pbufBytes.val →
      let c := dinSlice din 0 cfg.rate.bytes
      execIn cfg (.decblk len din) s = .next { s with
        S := cfg.perm (replaceRegion c s.S) cfg.rate.roundsB
        pbuf := memWrite s.pbuf s.plen.toNat
          (List.zipWith (fun x y => x ^^^ y) (regionBytes cfg.rate.bytes s.S) c)
        plen := s.plen + BitVec.ofNat 32 cfg.rate.bytes
        outbox := s.outbox ++ [emptyResponse .ok] })

/-- R131: `DECLAST`, on every instance and on the machine. -/
def Obligations.DeclastDecryptsTheLastBlock : Prop :=
  (∀ (len : BitVec 5) (din : Lanes 20) (s : State), exec (.declast len din) s = execIn Config.cfg (.declast len din) s) ∧
  ∀ (cfg : Cfg) (len : BitVec 5) (din : Lanes 20) (s : State), s.err = false →
    (encode (.declast len din)).header = 0x0008 ||| (len.setWidth 16 <<< 4) ∧
    (cfg.rate.bytes ≤ len.toNat → execIn cfg (.declast len din) s = .next (s.faulted .badLen)) ∧
    (len.toNat < cfg.rate.bytes → ¬(s.phase = .processing ∧ s.ddone = false ∧ s.dir = .dec) →
      execIn cfg (.declast len din) s = .next (s.faulted .badPhase)) ∧
    (len.toNat < cfg.rate.bytes → s.phase = .processing → s.ddone = false → s.dir = .dec →
      cfg.pbufBytes.val < s.plen.toNat + len.toNat →
      execIn cfg (.declast len din) s = .next (s.faulted .pbufOverflow)) ∧
    (len.toNat < cfg.rate.bytes → s.phase = .processing → s.ddone = false → s.dir = .dec →
      s.plen.toNat + len.toNat ≤ cfg.pbufBytes.val →
      let c := dinSlice din 0 len.toNat
      execIn cfg (.declast len din) s = .next { s with
        S := padRegion cfg len.toNat (replaceRegion c s.S)
        ddone := true
        pbuf := memWrite s.pbuf s.plen.toNat
          (List.zipWith (fun x y => x ^^^ y) (regionBytes len.toNat s.S) c)
        plen := s.plen + BitVec.ofNat 32 len.toNat
        outbox := s.outbox ++ [emptyResponse .ok] })

/-- R140, R141, R145: `FINENC` returns the tag and zeroizes `S`, `K` and `KVALID`. -/
def Obligations.FinencReturnsTheTag : Prop :=
  ∀ (len : BitVec 5) (s : State), s.err = false →
    (encode (.finenc 0)).header = 0x0009 ∧
    (len ≠ 0 → exec (.finenc len) s = .next (s.faulted .badLen)) ∧
    (len = 0 → ¬(s.phase = .processing ∧ s.ddone = true ∧ s.dir = .enc) →
      exec (.finenc len) s = .next (s.faulted .badPhase)) ∧
    (len = 0 → s.phase = .processing → s.ddone = true → s.dir = .enc →
      let p := Config.perm ⟨s.S.w0, s.S.w1 ^^^ Config.keyrot s.K.k0 s.K.k1,
        s.S.w2 ^^^ Config.keyrot s.K.k1 s.K.k2, s.S.w3 ^^^ Config.keyrot s.K.k2 0, s.S.w4⟩ 12
      exec (.finenc len) s = .next { s with
        S := ⟨0, 0, 0, 0, 0⟩
        K := ⟨0, 0, 0⟩
        kvalid := false
        phase := .finalized
        outbox := s.outbox ++ [{
          rsp := .ok
          doutLen := 16
          dout := lanes16 (storeBytes (p.w3 ^^^ s.K.k1) 8 ++ storeBytes (p.w4 ^^^ s.K.k2) 8) }] })

/-- R142, R144: `FINDEC` with `LEN = 16` sets `AUTH_OK` when the comparison word is zero; otherwise it zeroizes
the hold buffer and reports `AuthenticationFailure(TAG_MISMATCH)`. -/
def Obligations.FindecVerifiesTheTag : Prop :=
  ∀ (din : Lanes 20) (s : State), s.err = false →
    (encode (.findec 16 din)).header = 0x010A ∧
    (¬(s.phase = .processing ∧ s.ddone = true ∧ s.dir = .dec) →
      exec (.findec 16 din) s = .next (s.faulted .badPhase)) ∧
    (s.phase = .processing → s.ddone = true → s.dir = .dec →
      let p := Config.perm ⟨s.S.w0, s.S.w1 ^^^ Config.keyrot s.K.k0 s.K.k1,
        s.S.w2 ^^^ Config.keyrot s.K.k1 s.K.k2, s.S.w3 ^^^ Config.keyrot s.K.k2 0, s.S.w4⟩ 12
      let d := ((p.w3 ^^^ s.K.k1) ^^^ loadBytes (dinSlice din 0 8)) |||
        ((p.w4 ^^^ s.K.k2) ^^^ loadBytes (dinSlice din 8 8))
      (d = 0 → exec (.findec 16 din) s = .next { s with
        S := ⟨0, 0, 0, 0, 0⟩
        K := ⟨0, 0, 0⟩
        kvalid := false
        phase := .finalized
        authOk := true
        outbox := s.outbox ++ [emptyResponse .ok] }) ∧
      (d ≠ 0 → exec (.findec 16 din) s = .next { s with
        S := ⟨0, 0, 0, 0, 0⟩
        K := ⟨0, 0, 0⟩
        kvalid := false
        phase := .finalized
        pbuf := []
        plen := 0
        prd := 0
        authFail := true
        authCause := .tagMismatch
        outbox := s.outbox ++ [emptyResponse .authFail] }))

/-- R143: `FINDEC` with `LEN < 16` reports `AuthenticationFailure(UNDERSIZED)`; `LEN` above 16 faults. -/
def Obligations.FindecReportsUndersized : Prop :=
  ∀ (len : BitVec 5) (din : Lanes 20) (s : State), s.err = false →
    (encode (.findec len din)).header = 0x000A ||| (len.setWidth 16 <<< 4) ∧
    (16 < len.toNat → exec (.findec len din) s = .next (s.faulted .badLen)) ∧
    (len.toNat < 16 → ¬(s.phase = .uninitialized ∨ (s.dir = .dec ∧ s.phase ≠ .finalized)) →
      exec (.findec len din) s = .next (s.faulted .badPhase)) ∧
    (len.toNat < 16 → (s.phase = .uninitialized ∨ (s.dir = .dec ∧ s.phase ≠ .finalized)) →
      exec (.findec len din) s = .next { s with
        S := ⟨0, 0, 0, 0, 0⟩
        K := ⟨0, 0, 0⟩
        kvalid := false
        phase := .finalized
        pbuf := []
        plen := 0
        prd := 0
        authFail := true
        authCause := .undersized
        outbox := s.outbox ++ [emptyResponse .authFail] })

/-- R156: `RDPT`, on every instance and on the machine; `PLEN` within the buffer is R37 (j). -/
def Obligations.RdptReleasesPlaintext : Prop :=
  (∀ (len : BitVec 5) (s : State), exec (.rdpt len) s = execIn Config.cfg (.rdpt len) s) ∧
  ∀ (cfg : Cfg) (len : BitVec 5) (s : State), s.err = false →
    (encode (.rdpt len)).header = 0x000B ||| (len.setWidth 16 <<< 4) ∧
    ((len.toNat = 0 ∨ 16 < len.toNat) → execIn cfg (.rdpt len) s = .next (s.faulted .badLen)) ∧
    (1 ≤ len.toNat → len.toNat ≤ 16 → ¬(s.phase = .finalized ∧ s.authOk = true) →
      execIn cfg (.rdpt len) s = .next (s.faulted .badPhase)) ∧
    (1 ≤ len.toNat → len.toNat ≤ 16 → s.phase = .finalized → s.authOk = true →
      s.prd.toNat ≤ s.plen.toNat → s.plen.toNat ≤ cfg.pbufBytes.val →
      let m := min len.toNat (s.plen.toNat - s.prd.toNat)
      execIn cfg (.rdpt len) s = .next { s with
        prd := s.prd + BitVec.ofNat 32 m
        outbox := s.outbox ++ [{
          rsp := .ok
          doutLen := BitVec.ofNat 5 m
          dout := lanes16 ((List.range m).map (fun j => s.pbuf.read (s.prd.toNat + j))) }] })

/-- R157: `SCRUB` is accepted always and leaves the reset state; a `LEN` that is not 0 faults. -/
def Obligations.ScrubLeavesTheResetState : Prop :=
  ∀ (len : BitVec 5) (s : State),
    (encode (.scrub 0)).header = 0x000C ∧
    exec (.scrub 0) s = .next { s with
      S := ⟨0, 0, 0, 0, 0⟩
      K := ⟨0, 0, 0⟩
      pbuf := []
      plen := 0
      prd := 0
      kvalid := false
      dir := .enc
      ddone := false
      authOk := false
      authFail := false
      authCause := .tagMismatch
      err := false
      errCode := none
      phase := .uninitialized
      outbox := s.outbox ++ [emptyResponse .ok] } ∧
    (len ≠ 0 → s.err = false → exec (.scrub len) s = .next (s.faulted .badLen))

/-! Frames of the hold buffer. -/

/-- R58, R130, R131: an accepted `DECBLK` or `DECLAST` of `n` bytes stores the recovered bytes at offsets
`PLEN` to `PLEN + n - 1`, and every other offset reads as before. -/
def Obligations.DecryptionStoresOnlyItsBlock : Prop :=
  ∀ (cfg : Cfg) (i : Instr) (len : BitVec 5) (din : Lanes 20) (s : State),
    s.pbuf.wf = true →
    (i = .decblk len din ∨ i = .declast len din) → verdict cfg s.toArch i = .execute →
    ∃ t, execIn cfg i s = .next t ∧
      (∀ k, k < len.toNat →
        t.pbuf.read (s.plen.toNat + k) = regionByte s.S k ^^^ (din.val[k]?).getD 0) ∧
      (∀ k, k < s.plen.toNat ∨ s.plen.toNat + len.toNat ≤ k → t.pbuf.read k = s.pbuf.read k) ∧
      t.plen.toNat = s.plen.toNat + len.toNat

/-- R34, R58: a command that executes and is neither a decryption block, nor a failing `FINDEC`, nor `SCRUB`
leaves every byte of the hold buffer and its count as they were. -/
def Obligations.OtherCommandsKeepTheBuffer : Prop :=
  ∀ (i : Instr) (s t : State), verdict Config.cfg s.toArch i = .execute → exec i s = .next t →
    (∀ len din, i ≠ .decblk len din) → (∀ len din, i ≠ .declast len din) → (∀ len, i ≠ .scrub len) →
    (∀ len din, i = .findec len din → t.authFail = false) →
    (∀ k, t.pbuf.read k = s.pbuf.read k) ∧ t.plen = s.plen

/-! Rules about the whole machine. -/

/-- R22, R23: a step leaves `K` as it was or zeroizes it, unless it accepts an `LDKEY` in `Uninitialized` with no
key loaded. -/
def Obligations.KeyIsWrittenByLdkeyOnly : Prop :=
  ∀ s t : State, step s = .next t →
    t.K = s.K ∨ t.K = ⟨0, 0, 0⟩ ∨
      (s.phase = .uninitialized ∧ s.kvalid = false ∧
        ∃ c rest din, s.inbox = .command c :: rest ∧ decode c = .ok (.ldkey 20 din))

/-- R24: `PHASE` only ever increases, and the only way back is `SCRUB` or reset. -/
def Obligations.PhaseMovesForward : Prop :=
  ∀ s t : State, step s = .next t →
    s.phase.code.toNat ≤ t.phase.code.toNat ∨
      (t.toArch = Arch.reset ∧ ∃ e rest, s.inbox = e :: rest ∧
        (e = .reset ∨ ∃ din, e = .command ⟨0x000C, din⟩))

/-- R145, R192, R224: the step that enters `Finalized` leaves `S`, `K` and `KVALID` zero. -/
def Obligations.FinalizedHoldsNoSecret : Prop :=
  ∀ s t : State, step s = .next t → s.phase ≠ .finalized → t.phase = .finalized →
    t.S = ⟨0, 0, 0, 0, 0⟩ ∧ t.K = ⟨0, 0, 0⟩ ∧ t.kvalid = false

/-- R29, R142: `AUTH_OK` is set by a `FINDEC` whose comparison word is zero and by nothing else. -/
def Obligations.AuthOkNeedsAMatchingTag : Prop :=
  ∀ s t : State, step s = .next t → s.authOk = false → t.authOk = true →
    ∃ c rest din, s.inbox = .command c :: rest ∧ decode c = .ok (.findec 16 din) ∧
      s.phase = .processing ∧ s.ddone = true ∧ s.dir = .dec ∧
      tagBytes (finalizeCore Config.cfg s.K s.S) = dinSlice din 0 16

/-- R226: while `AUTH_OK = 0` no response depends on the contents of `PBUF`. -/
def Obligations.PlaintextStaysSealed : Prop :=
  ∀ (s : State) (m : Memory), s.authOk = false →
    ∃ t u, step s = .next t ∧ step { s with pbuf := m } = .next u ∧ t.outbox = u.outbox ∧
      u = { t with pbuf := u.pbuf }

/-- R225 (a), (b): on states with the same public part and commands with the same header, the next public part
and the public part of the response are the same, whatever `S`, `K`, `PBUF` and the payload hold, except that
`FINDEC` with `LEN = 16` depends on whether the comparison word is zero. -/
def Obligations.PublicBehaviourIgnoresSecrets : Prop :=
  ∀ (s s' t t' : State) (c c' : Command) (rest rest' : List HostEvent),
    s.publicView = s'.publicView → s.inbox = .command c :: rest → s'.inbox = .command c' :: rest' →
    c.header = c'.header → step s = .next t → step s' = .next t' →
    (∀ din din', decode c = .ok (.findec 16 din) → decode c' = .ok (.findec 16 din') →
      (tagDifference (finalizeCore Config.cfg s.K s.S) (dinSlice din 0 16) = 0 ↔
        tagDifference (finalizeCore Config.cfg s'.K s'.S) (dinSlice din' 0 16) = 0)) →
    t.publicView = t'.publicView ∧
      ∃ r r', t.outbox = s.outbox ++ [r] ∧ t'.outbox = s'.outbox ++ [r'] ∧ r.publicView = r'.publicView

/-- R72: payload lanes at and beyond `LEN` are never read, and `STAT`, `FINENC`, `RDPT`, `SCRUB` read none. -/
def Obligations.UnusedPayloadIsIgnored : Prop :=
  ∀ (s : State) (c c' : Command) (rest : List HostEvent), c.header = c'.header →
    (c.din.val.take (lenField c.header).toNat = c'.din.val.take (lenField c.header).toNat ∨
      opField c.header = 0x0 ∨ opField c.header = 0x9 ∨ opField c.header = 0xB ∨ opField c.header = 0xC) →
    step { s with inbox := .command c :: rest } = step { s with inbox := .command c' :: rest }

/-- R8, R9, R65, R233: which calls of `PERM` a command makes and at which of the round counts 12, 6 and 8, by rate;
and a command depends on `PERM` at those round counts and nowhere else. The pairing of rate and round count is the
spec's own decision (D18). -/
def Obligations.PermutationIsCalledAtItsRoundsOnly : Prop :=
  ∀ (cfg : Cfg) (perm' : Sponge → RoundCount → Sponge) (i : Instr) (s : State),
    (∀ r ∈ permCalls cfg i, ∀ x, perm' x r = cfg.perm x r) →
    (cfg.rate = .r8 → cfg.rate.bytes = 8 ∧ cfg.rate.roundsB = 6) ∧
    (cfg.rate = .r16 → cfg.rate.bytes = 16 ∧ cfg.rate.roundsB = 8) ∧
    (∀ r ∈ permCalls cfg i, r = 12 ∨ r = cfg.rate.roundsB) ∧
    permCalls cfg i =
      (if i.opcode = 0x2 ∨ i.opcode = 0x9 ∨ (i.opcode = 0xA ∧ i.len = 16) then [12]
        else if i.opcode = 0x3 ∨ i.opcode = 0x4 ∨ i.opcode = 0x5 ∨ i.opcode = 0x7 then [cfg.rate.roundsB]
        else []) ∧
    execIn { cfg with perm := perm' } i s = execIn cfg i s

/-- R207: steps of two different instances do not affect each other: either order gives the same states, and each of
the two holds what its own step gives it. -/
def Obligations.InstancesAreIndependent : Prop :=
  ∀ (cores x y : List (Cfg × State)) (j k : Nat), j ≠ k →
    stepInstance j cores = .next x → stepInstance k cores = .next y →
    ∃ z, stepInstance k x = .next z ∧ stepInstance j y = .next z ∧ z.length = cores.length ∧
      (∀ cfg s, cores[j]? = some (cfg, s) → ∃ t, stepIn cfg s = .next t ∧ z[j]? = some (cfg, t)) ∧
      (∀ cfg s, cores[k]? = some (cfg, s) → ∃ t, stepIn cfg s = .next t ∧ z[k]? = some (cfg, t)) ∧
      (∀ n, n ≠ j → n ≠ k → z[n]? = cores[n]?)

/-! Invariants. -/

/-- The invariant holds at reset. -/
def Obligations.InvariantHoldsAtReset : Prop := State.Inv State.reset

/-- Every step keeps the invariant: R37's clauses, the canonical form of `PBUF`, and the form of the responses. -/
def Obligations.StepKeepsTheInvariant : Prop :=
  ∀ s t : State, s.Inv → step s = .next t → t.Inv

/-- R37: every state reachable from reset by any sequence of commands and resets meets the clauses of R37. -/
def Obligations.ReachableStatesMeetR37 : Prop :=
  ∀ s : State, Reachable s → s.toArch.R37 Config.cfg

/-- R190, R232: in every state that meets the invariant, every event has a next state; nothing stops the machine. -/
def Obligations.EveryEventHasANextState : Prop :=
  ∀ s : State, s.Inv → ∃ t, step s = .next t

/-! Bytes, words, and the status register. -/

/-- R52: the bytes of `STOREBYTES`, and that it and `LOADBYTES` undo each other. -/
def Obligations.ByteTransfersAreLittleEndian : Prop :=
  (∀ (w : W64) (n j : Nat), n ≤ 8 → (storeBytes w n).length = n ∧
    (j < n → (storeBytes w n)[j]? = some (w.extractLsb' (8 * j) 8))) ∧
  (∀ bs : List Byte, bs.length ≤ 8 → storeBytes (loadBytes bs) bs.length = bs) ∧
  (∀ w : W64, loadBytes (storeBytes w 8) = w) ∧
  storeBytes 0x1122334455667788 3 = [0x88, 0x77, 0x66]

/-- R55, R56, R57, byte by byte over the 16 bytes the region can hold: `XORREGION` and `REPLACEREGION` change the
first `n` bytes, `PADREGION` byte `n`, and nothing else changes; `REGIONBYTES` lists the first `n` bytes, a whole
region of 16 included. -/
def Obligations.RegionPrimitivesActOnTheirBytes : Prop :=
  ∀ (cfg : Cfg) (bs : List Byte) (s : Sponge) (n k : Nat), bs.length ≤ 16 → k < 16 →
    regionByte (xorRegion bs s) k = (if k < bs.length then regionByte s k ^^^ (bs[k]?).getD 0 else regionByte s k) ∧
    regionByte (replaceRegion bs s) k = (if k < bs.length then (bs[k]?).getD 0 else regionByte s k) ∧
    (n < 16 →
      regionByte (padRegion cfg n s) k = (if k = n then regionByte s k ^^^ cfg.padByte else regionByte s k)) ∧
    (n ≤ 16 → (regionBytes n s).length = n ∧
      (regionBytes n s)[k]? = (if k < n then some (regionByte s k) else none)) ∧
    (xorRegion bs s).w2 = s.w2 ∧ (xorRegion bs s).w3 = s.w3 ∧ (xorRegion bs s).w4 = s.w4 ∧
    (replaceRegion bs s).w2 = s.w2 ∧ (replaceRegion bs s).w3 = s.w3 ∧ (replaceRegion bs s).w4 = s.w4 ∧
    (padRegion cfg n s).w2 = s.w2 ∧ (padRegion cfg n s).w3 = s.w3 ∧ (padRegion cfg n s).w4 = s.w4

/-- R31: the fields of `STATUS`, each with the numbers its values have: R24 for `PHASE`, R194 for `ERRCODE`, R29
for `AUTHCAUSE`, 1 for a flag that is set; and the numbers of `RSP` (R73). -/
def Obligations.StatusFields : Prop :=
  ∀ (rate : Rate) (a : Arch),
    (status rate a).extractLsb' 0 3 = a.phase.code ∧ (status rate a).extractLsb' 3 1 = flagBit a.kvalid ∧
    (status rate a).extractLsb' 4 1 = a.dir.bit ∧ (status rate a).extractLsb' 5 1 = flagBit a.ddone ∧
    (status rate a).extractLsb' 6 1 = flagBit a.authOk ∧ (status rate a).extractLsb' 7 1 = flagBit a.authFail ∧
    (status rate a).extractLsb' 8 1 = flagBit a.err ∧ (status rate a).extractLsb' 9 4 = errCodeBits a.errCode ∧
    (status rate a).extractLsb' 13 1 = a.authCause.bit ∧ (status rate a).extractLsb' 14 1 = rateSel rate ∧
    (status rate a).extractLsb' 15 17 = 0 ∧
    (a.phase = .uninitialized → (status rate a).extractLsb' 0 3 = 0) ∧
    (a.phase = .initialized → (status rate a).extractLsb' 0 3 = 1) ∧
    (a.phase = .absorbingAD → (status rate a).extractLsb' 0 3 = 2) ∧
    (a.phase = .processing → (status rate a).extractLsb' 0 3 = 3) ∧
    (a.phase = .finalized → (status rate a).extractLsb' 0 3 = 4) ∧
    (status rate a).getLsbD 3 = a.kvalid ∧
    ((status rate a).getLsbD 4 = true ↔ a.dir = .dec) ∧
    (status rate a).getLsbD 5 = a.ddone ∧ (status rate a).getLsbD 6 = a.authOk ∧
    (status rate a).getLsbD 7 = a.authFail ∧ (status rate a).getLsbD 8 = a.err ∧
    (a.errCode = none → (status rate a).extractLsb' 9 4 = 0) ∧
    (a.errCode = some .illegalOp → (status rate a).extractLsb' 9 4 = 1) ∧
    (a.errCode = some .reservedBits → (status rate a).extractLsb' 9 4 = 2) ∧
    (a.errCode = some .badLen → (status rate a).extractLsb' 9 4 = 3) ∧
    (a.errCode = some .badPhase → (status rate a).extractLsb' 9 4 = 4) ∧
    (a.errCode = some .pbufOverflow → (status rate a).extractLsb' 9 4 = 5) ∧
    ((status rate a).getLsbD 13 = true ↔ a.authCause = .undersized) ∧
    ((status rate a).getLsbD 14 = true ↔ rate = .r16) ∧
    Rsp.code .ok = 0 ∧ Rsp.code .authFail = 1 ∧ Rsp.code .fault = 2

/-! The scheme. -/

/-- R133: on every configuration the decrypt command on the output of the encrypt command leaves the same state
and recovers the block, for a full block and for a last block. -/
def Obligations.DecryptionMirrorsEncryption : Prop :=
  ∀ (cfg : Cfg) (s : Sponge) (b : List Byte),
    (b.length = cfg.rate.bytes →
      decryptBlock cfg s (encryptBlock cfg s b).2 = ((encryptBlock cfg s b).1, b)) ∧
    (b.length < cfg.rate.bytes →
      decryptLast cfg s (encryptLast cfg s b).2 = ((encryptLast cfg s b).1, b))

/-- R173: the length of a ciphertext. -/
def Obligations.CiphertextLength : Prop :=
  ∀ (cfg : Cfg) (key nonce ad pt : List Byte), (encryptMessage cfg key nonce ad pt).length = pt.length + 16

/-- R174: decryption recovers what was encrypted, on every configuration. -/
def Obligations.MessageRoundTrip : Prop :=
  ∀ (cfg : Cfg) (key nonce ad pt : List Byte),
    decryptMessage cfg key nonce ad (encryptMessage cfg key nonce ad pt) = some pt

/-- R176: a ciphertext whose tag differs in any bit is rejected, on every configuration. -/
def Obligations.ChangedTagIsRejected : Prop :=
  ∀ (cfg : Cfg) (key nonce ad pt tag : List Byte), tag.length = 16 →
    (encryptMessage cfg key nonce ad pt).take pt.length ++ tag ≠ encryptMessage cfg key nonce ad pt →
    decryptMessage cfg key nonce ad ((encryptMessage cfg key nonce ad pt).take pt.length ++ tag) = none

/-- R170, R175: on every instance the command sequence of `ENCRYPT`, from the reset state, is accepted in full,
gives the bytes of the function `encrypt`, and ends in the reset state. -/
def Obligations.EncryptSequenceComputesEncrypt : Prop :=
  ∀ (cfg : Cfg) (key nonce ad pt : List Byte), key.length = 20 → nonce.length = 16 →
    let cmds := encryptCommands cfg.rate key nonce ad pt
    cmds.length = 2 + (ad.length / cfg.rate.bytes + 1) + (pt.length / cfg.rate.bytes + 1) + 2 ∧
    ∃ rs, runIn cfg cmds.length { State.reset with inbox := hostEvents cmds } =
        .next { State.reset with outbox := rs } ∧
      (∀ r ∈ rs, r.rsp = .ok) ∧ rs.length = cmds.length ∧
      collect rs = encryptMessage cfg key nonce ad pt

/-- R171: on every instance whose buffer holds the body, the command sequence of `DECRYPT` from the reset state
gives the plaintext of the function `decrypt`, and ends in the reset state; where that function fails, `FINDEC`
alone answers `AUTH_FAIL` and no plaintext byte is output. -/
def Obligations.DecryptSequenceComputesDecrypt : Prop :=
  ∀ (cfg : Cfg) (key nonce ad ct : List Byte), key.length = 20 → nonce.length = 16 →
    ct.length - 16 ≤ cfg.pbufBytes.val →
    (∀ pt, decryptMessage cfg key nonce ad ct = some pt →
      let cmds := decryptCommands cfg.rate key nonce ad ct ++ readCommands pt.length ++ [.scrub 0]
      ∃ rs, runIn cfg cmds.length { State.reset with inbox := hostEvents cmds } =
          .next { State.reset with outbox := rs } ∧
        (∀ r ∈ rs, r.rsp = .ok) ∧ collect rs = pt) ∧
    (decryptMessage cfg key nonce ad ct = none →
      let cmds := decryptCommands cfg.rate key nonce ad ct ++ [.scrub 0]
      ∃ before after, runIn cfg cmds.length { State.reset with inbox := hostEvents cmds } =
          .next { State.reset with outbox := before ++ [emptyResponse .authFail, after] } ∧
        (∀ r ∈ before, r.rsp = .ok) ∧ collect before = [] ∧ after = emptyResponse .ok)

/-! What the whole-state operations do, and the permutation port. -/

/-- R112: the domain separation inverts bit `DSEP_BIT` of `S[DSEP_WORD]` and keeps every other bit of the five
words; with it, that `wordAt` and `setWord` read and write the word of that number. -/
def Obligations.DomainSeparationInvertsOneBit : Prop :=
  ∀ (cfg : Cfg) (s : Sponge) (i : Fin 5) (v : W64) (j : Nat),
    let words := fun x : Sponge => [x.w0, x.w1, x.w2, x.w3, x.w4]
    (words s)[i.val]? = some (wordAt s i) ∧
    words (setWord s i v) = (words s).set i.val v ∧
    (wordAt (domainSeparate cfg s) i).getLsbD j =
      (if i = cfg.dsepWord ∧ j = cfg.dsepBit.val then !(wordAt s i).getLsbD j else (wordAt s i).getLsbD j)

/-- R65: the request carries `S[i]` at bits 64i+63:64i of its 320 bits and the round count in its 4; the answer is
read in the same word order and used whole; and what comes back is `PERM` of the state words that were sent. -/
def Obligations.PermutationPortCarriesTheWords : Prop :=
  ∀ (cfg : Cfg) (rounds : RoundCount) (s : Sponge) (answer : BitVec 320) (i : Fin 5),
    (permRequest rounds s).words.extractLsb' (64 * i.val) 64 = wordAt s i ∧
    (permRequest rounds s).rounds = rounds ∧
    wordAt (ofPermBus answer) i = answer.extractLsb' (64 * i.val) 64 ∧
    permute cfg rounds s = ofPermBus (permUnit cfg (permRequest rounds s)) ∧
    permute cfg rounds s = cfg.perm s rounds
end

