-- ==== Sys2Proof/Laws/Bytes.lean ====
section
/-! SUPPORT. Words byte by byte, and the rate region byte by byte: what the primitives of R51 to R57 do to
each byte; the permutation port (R65); the state words by number. -/

namespace Sys2Proof.Machine

/-! Words. -/

/-- Words with the same eight bytes are the same word. -/
theorem word_ext {v w : W64} (h : ∀ j, j < 8 → v.extractLsb' (8 * j) 8 = w.extractLsb' (8 * j) 8) : v = w := by
  apply BitVec.eq_of_getLsbD_eq
  intro i hi
  have hb := congrArg (fun x : BitVec 8 => x.getLsbD (i % 8)) (h (i / 8) (by omega))
  have hm : i % 8 < 8 := Nat.mod_lt _ (by omega)
  simpa [BitVec.getLsbD_extractLsb', hm, Nat.div_add_mod] using hb

/-- One byte placed at byte position `j`, seen at byte position `k`. -/
theorem placed_byte (b : Byte) (j k : Nat) (hk : k < 8) :
    (b.setWidth 64 <<< (8 * j)).extractLsb' (8 * k) 8 = if k = j then b else 0 := by
  apply BitVec.eq_of_getLsbD_eq
  intro i hi
  have h64 : 8 * k + i < 64 := by omega
  by_cases hkj : k = j
  · subst hkj
    have h1 : ¬8 * k + i < 8 * k := by omega
    have h2 : 8 * k + i - 8 * k = i := by omega
    simp [hi, h64, h1, h2]
  · rcases Nat.lt_or_gt_of_ne hkj with hlt | hgt
    · have h1 : 8 * k + i < 8 * j := by omega
      simp [BitVec.getLsbD_extractLsb', BitVec.getLsbD_shiftLeft, hkj, h1]
    · have h2 : b.getLsbD (8 * k + i - 8 * j) = false := BitVec.getLsbD_of_ge _ _ (by omega)
      simp [BitVec.getLsbD_extractLsb', BitVec.getLsbD_shiftLeft, BitVec.getLsbD_setWidth, hkj, h2]

/-- The bytes of `loadFrom`. -/
theorem loadFrom_byte (bs : List Byte) (j k : Nat) (hk : k < 8) :
    (loadFrom j bs).extractLsb' (8 * k) 8 = if j ≤ k then (bs[k - j]?).getD 0 else 0 := by
  induction bs generalizing j with
  | nil => simp [loadFrom]
  | cons b bs ih =>
    rw [loadFrom, BitVec.extractLsb'_or, placed_byte b j k hk, ih (j + 1)]
    by_cases h1 : k = j
    · subst h1; simp
    · by_cases h2 : j ≤ k
      · have h3 : j + 1 ≤ k := by omega
        have h4 : k - j = (k - (j + 1)) + 1 := by omega
        simp [h1, h2, h3, h4]
      · have h3 : ¬j + 1 ≤ k := by omega
        simp [h1, h2, h3]

/-- Byte `k` of `LOADBYTES` is byte `k` of the sequence, and zero beyond it (R51). -/
theorem loadBytes_byte (bs : List Byte) (k : Nat) (hk : k < 8) :
    (loadBytes bs).extractLsb' (8 * k) 8 = (bs[k]?).getD 0 := by
  simpa [loadBytes] using loadFrom_byte bs 0 k hk

@[simp] theorem storeBytes_length (w : W64) (n : Nat) : (storeBytes w n).length = n := by simp [storeBytes]

/-- Byte `j` of `STOREBYTES` (R52). -/
theorem storeBytes_getElem? (w : W64) (n j : Nat) :
    (storeBytes w n)[j]? = if j < n then some (w.extractLsb' (8 * j) 8) else none := by
  by_cases h : j < n <;> simp [storeBytes, h]

/-- Byte `j` of `STOREBYTES` (R52). -/
theorem storeBytes_getElem (w : W64) (n j : Nat) (h : j < (storeBytes w n).length) :
    (storeBytes w n)[j] = w.extractLsb' (8 * j) 8 := by simp [storeBytes]

/-- Storing what was loaded (R52). -/
theorem storeBytes_loadBytes (bs : List Byte) (h : bs.length ≤ 8) :
    storeBytes (loadBytes bs) bs.length = bs := by
  apply List.ext_getElem?
  intro j
  rw [storeBytes_getElem?]
  by_cases hj : j < bs.length
  · rw [if_pos hj, loadBytes_byte bs j (by omega)]
    simp [hj]
  · simp [hj]

/-- Loading what was stored (R52). -/
theorem loadBytes_storeBytes (w : W64) : loadBytes (storeBytes w 8) = w :=
  word_ext fun j hj => by simp [loadBytes_byte, hj, storeBytes_getElem]

/-- `MASK(n)` has the first `n` bytes all ones (R53). -/
theorem mask_byte (n k : Nat) (hn : n ≤ 8) (hk : k < 8) :
    (mask n).extractLsb' (8 * k) 8 = if k < n then 0xFF#8 else 0 := by
  have : ∀ n ≤ 8, ∀ k < 8, (mask n).extractLsb' (8 * k) 8 = if k < n then 0xFF#8 else 0 := by decide
  exact this n hn k hk

/-- Byte `k` of the padding marker of byte position `n` (R11). -/
theorem padMarker_byte (cfg : Cfg) (n k : Nat) (hk : k < 8) :
    (padMarker cfg n).extractLsb' (8 * k) 8 = if k = n then cfg.padByte else 0 := placed_byte _ n k hk

/-- Byte `k` of a word whose low bytes are replaced (R57). -/
theorem replaceLow_byte (w : W64) (bs : List Byte) (k : Nat) (hb : bs.length ≤ 8) (hk : k < 8) :
    (replaceLow w bs).extractLsb' (8 * k) 8 =
      if k < bs.length then (bs[k]?).getD 0 else w.extractLsb' (8 * k) 8 := by
  have hn : (~~~(mask bs.length)).extractLsb' (8 * k) 8 = if k < bs.length then 0 else 0xFF#8 := by
    have : ∀ n ≤ 8, ∀ k < 8, (~~~(mask n)).extractLsb' (8 * k) 8 = if k < n then 0 else 0xFF#8 := by decide
    exact this bs.length hb k hk
  rw [replaceLow, BitVec.extractLsb'_or, BitVec.extractLsb'_and, loadBytes_byte bs k hk, hn]
  by_cases h : k < bs.length
  · simp [h]
  · have : (255#8) = BitVec.allOnes 8 := by decide
    rw [if_neg h, if_neg h, this, BitVec.and_allOnes]
    simp [List.getElem?_eq_none (Nat.le_of_not_lt h)]

/-! The rate region. -/

/-- States that agree on the 16 region bytes and on the last three words are the same. -/
theorem sponge_ext {s t : Sponge} (h : ∀ k, k < 16 → regionByte s k = regionByte t k)
    (h2 : s.w2 = t.w2) (h3 : s.w3 = t.w3) (h4 : s.w4 = t.w4) : s = t := by
  have h0 : s.w0 = t.w0 := word_ext fun j hj => by
    have := h j (by omega)
    simpa [regionByte, hj, Nat.mod_eq_of_lt hj] using this
  have h1 : s.w1 = t.w1 := word_ext fun j hj => by
    have := h (8 + j) (by omega)
    have e1 : ¬8 + j < 8 := by omega
    have e2 : (8 + j) % 8 = j := by omega
    simpa [regionByte, e1, e2] using this
  cases s; cases t; simp_all

/-- `REGIONBYTES(n)` lists the region bytes (R57). -/
theorem regionBytes_getElem? (s : Sponge) (n k : Nat) (hk : k < 16) :
    (regionBytes n s)[k]? = if k < n then some (regionByte s k) else none := by
  rw [regionBytes, List.getElem?_take]
  by_cases hn : k < n
  · rw [if_pos hn, if_pos hn]
    by_cases h8 : k < 8
    · rw [List.getElem?_append_left (by simpa using h8)]
      simp [storeBytes_getElem, h8, regionByte, Nat.mod_eq_of_lt h8]
    · rw [List.getElem?_append_right (by simpa using Nat.le_of_not_lt h8)]
      have e : k % 8 = k - 8 := by omega
      have e2 : k - 8 < 8 := by omega
      simp [storeBytes_getElem, h8, regionByte, e, e2]
  · simp [hn]

theorem regionBytes_length (s : Sponge) (n : Nat) (hn : n ≤ 16) : (regionBytes n s).length = n := by
  simp [regionBytes, hn]

/-- `XORREGION` on region byte `k` (R55). -/
theorem xorRegion_byte (bs : List Byte) (s : Sponge) (k : Nat) (hk : k < 16) :
    regionByte (xorRegion bs s) k = regionByte s k ^^^ (bs[k]?).getD 0 := by
  rw [xorRegion]
  by_cases hb : bs.length ≤ 8
  · rw [if_pos hb]
    by_cases h8 : k < 8
    · simp [regionByte, h8, BitVec.extractLsb'_xor, loadBytes_byte bs k h8, Nat.mod_eq_of_lt h8]
    · simp [regionByte, h8, List.getElem?_eq_none (show bs.length ≤ k by omega)]
  · rw [if_neg hb]
    by_cases h8 : k < 8
    · simp [regionByte, h8, BitVec.extractLsb'_xor, Nat.mod_eq_of_lt h8, loadBytes_byte _ k h8]
    · have e : k % 8 = k - 8 := by omega
      have e2 : 8 + (k - 8) = k := by omega
      simp [regionByte, h8, BitVec.extractLsb'_xor, e, loadBytes_byte _ (k - 8) (show k - 8 < 8 by omega), e2]

/-- `REPLACEREGION` on region byte `k` (R57). -/
theorem replaceRegion_byte (bs : List Byte) (s : Sponge) (k : Nat) (hb : bs.length ≤ 16) (hk : k < 16) :
    regionByte (replaceRegion bs s) k = if k < bs.length then (bs[k]?).getD 0 else regionByte s k := by
  rw [replaceRegion]
  by_cases h : bs.length ≤ 8
  · rw [if_pos h]
    by_cases h8 : k < 8
    · simp [regionByte, h8, Nat.mod_eq_of_lt h8, replaceLow_byte s.w0 bs k h h8]
    · have : ¬k < bs.length := by omega
      simp [regionByte, h8, this]
  · rw [if_neg h]
    by_cases h8 : k < 8
    · have : k < bs.length := by omega
      simp [regionByte, h8, Nat.mod_eq_of_lt h8, loadBytes_byte _ k h8, this]
    · have e : k % 8 = k - 8 := by omega
      have e2 : 8 + (k - 8) = k := by omega
      have hl : (bs.drop 8).length ≤ 8 := by simp; omega
      have e3 : k - 8 < (bs.drop 8).length ↔ k < bs.length := by simp; omega
      simp only [regionByte, h8, if_false, e, replaceLow_byte s.w1 (bs.drop 8) (k - 8) hl (by omega), e3]
      simp [e2]

/-- `PADREGION` on region byte `k` (R56). -/
theorem padRegion_byte (cfg : Cfg) (n : Nat) (s : Sponge) (k : Nat) (hn : n < 16) (hk : k < 16) :
    regionByte (padRegion cfg n s) k = if k = n then regionByte s k ^^^ cfg.padByte else regionByte s k := by
  rw [padRegion]
  by_cases h : n < 8
  · rw [if_pos h]
    by_cases h8 : k < 8
    · have hp := padMarker_byte cfg n k h8
      by_cases hkn : k = n
      · subst hkn
        simp [regionByte, h8, Nat.mod_eq_of_lt h8, BitVec.extractLsb'_xor, hp]
      · simp [regionByte, h8, Nat.mod_eq_of_lt h8, BitVec.extractLsb'_xor, hp, hkn]
    · have : k ≠ n := by omega
      simp [regionByte, h8, this]
  · rw [if_neg h]
    by_cases h8 : k < 8
    · have : k ≠ n := by omega
      simp [regionByte, h8, this]
    · have e : k % 8 = k - 8 := by omega
      by_cases hkn : k = n
      · subst hkn
        simp [regionByte, h8, e, BitVec.extractLsb'_xor, padMarker_byte cfg (k - 8) (k - 8) (by omega)]
      · have : k - 8 ≠ n - 8 := by omega
        simp [regionByte, h8, e, BitVec.extractLsb'_xor, padMarker_byte cfg (n - 8) (k - 8) (by omega), hkn, this]

@[simp] theorem xorRegion_w2 (bs : List Byte) (s : Sponge) : (xorRegion bs s).w2 = s.w2 := by
  unfold xorRegion; split <;> rfl
@[simp] theorem xorRegion_w3 (bs : List Byte) (s : Sponge) : (xorRegion bs s).w3 = s.w3 := by
  unfold xorRegion; split <;> rfl
@[simp] theorem xorRegion_w4 (bs : List Byte) (s : Sponge) : (xorRegion bs s).w4 = s.w4 := by
  unfold xorRegion; split <;> rfl
@[simp] theorem replaceRegion_w2 (bs : List Byte) (s : Sponge) : (replaceRegion bs s).w2 = s.w2 := by
  unfold replaceRegion; split <;> rfl
@[simp] theorem replaceRegion_w3 (bs : List Byte) (s : Sponge) : (replaceRegion bs s).w3 = s.w3 := by
  unfold replaceRegion; split <;> rfl
@[simp] theorem replaceRegion_w4 (bs : List Byte) (s : Sponge) : (replaceRegion bs s).w4 = s.w4 := by
  unfold replaceRegion; split <;> rfl
@[simp] theorem padRegion_w2 (cfg : Cfg) (n : Nat) (s : Sponge) : (padRegion cfg n s).w2 = s.w2 := by
  unfold padRegion; split <;> rfl
@[simp] theorem padRegion_w3 (cfg : Cfg) (n : Nat) (s : Sponge) : (padRegion cfg n s).w3 = s.w3 := by
  unfold padRegion; split <;> rfl
@[simp] theorem padRegion_w4 (cfg : Cfg) (n : Nat) (s : Sponge) : (padRegion cfg n s).w4 = s.w4 := by
  unfold padRegion; split <;> rfl

/-! The tag, and the permutation port. -/

@[simp] theorem tagBytes_length (s : Sponge) : (tagBytes s).length = 16 := by simp [tagBytes]

/-- The comparison word is zero exactly for the tag (R144). -/
theorem tagDifference_eq_zero (s : Sponge) (tag : List Byte) (h : tag.length = 16) :
    tagDifference s tag = 0 ↔ tag = tagBytes s := by
  have h1 : (tag.take 8).length = 8 := by simp [h]
  have h2 : ((tag.drop 8).take 8).length = 8 := by simp [h]
  have h3 : (tag.drop 8).take 8 = tag.drop 8 := List.take_of_length_le (by simp [h])
  have or0 : ∀ x y : W64, x ||| y = 0 ↔ x = 0 ∧ y = 0 := by
    intro x y
    exact BitVec.or_eq_zero_iff
  have xor0 : ∀ x y : W64, x ^^^ y = 0 ↔ x = y := fun x y => BitVec.xor_eq_zero_iff
  rw [tagDifference, or0, xor0, xor0]
  constructor
  · rintro ⟨e3, e4⟩
    have a := storeBytes_loadBytes (tag.take 8) (by omega)
    have b := storeBytes_loadBytes ((tag.drop 8).take 8) (by omega)
    rw [h1, ← e3] at a
    rw [h2, ← e4, h3] at b
    rw [tagBytes, a, b, List.take_append_drop]
  · rintro rfl
    have a : (tagBytes s).take 8 = storeBytes s.w3 8 := by
      rw [tagBytes, List.take_append_of_le_length (by simp)]; simp [List.take_of_length_le]
    have b : (tagBytes s).drop 8 = storeBytes s.w4 8 := by
      rw [tagBytes, List.drop_append_of_le_length (by simp)]; simp [List.drop_of_length_le]
    rw [h3, a, b, loadBytes_storeBytes, loadBytes_storeBytes]
    exact ⟨rfl, rfl⟩

/-- Bit `64i + j` of the request bus is bit `j` of `S[i]` (R65). -/
theorem permBus_getLsbD (s : Sponge) (n : Nat) : (permBus s).getLsbD n =
    if n < 64 then s.w0.getLsbD n else if n < 128 then s.w1.getLsbD (n - 64)
    else if n < 192 then s.w2.getLsbD (n - 128) else if n < 256 then s.w3.getLsbD (n - 192)
    else s.w4.getLsbD (n - 256) := by
  have h : ((s.w4 ++ s.w3 ++ s.w2 ++ s.w1 ++ s.w0 : BitVec (64 + 64 + 64 + 64 + 64))).getLsbD n =
      if n < 64 then s.w0.getLsbD n else if n < 128 then s.w1.getLsbD (n - 64)
      else if n < 192 then s.w2.getLsbD (n - 128) else if n < 256 then s.w3.getLsbD (n - 192)
      else s.w4.getLsbD (n - 256) := by
    rw [BitVec.getLsbD_append, BitVec.getLsbD_append, BitVec.getLsbD_append, BitVec.getLsbD_append]
    simp only [Nat.sub_sub, Nat.reduceAdd]
    have e1 : n - 64 < 64 ↔ n < 128 := by omega
    have e2 : n - 128 < 64 ↔ n < 192 := by omega
    have e3 : n - 192 < 64 ↔ n < 256 := by omega
    simp only [e1, e2, e3]
  exact h

/-- The 320-bit bus of the permutation port carries the state words (R65). -/
theorem ofPermBus_permBus (s : Sponge) : ofPermBus (permBus s) = s := by
  have slice : ∀ (start : Nat) (w : W64), (∀ j < 64, (permBus s).getLsbD (start + j) = w.getLsbD j) →
      (permBus s).extractLsb' start 64 = w := fun start w hw => by
    apply BitVec.eq_of_getLsbD_eq
    intro j hj
    rw [BitVec.getLsbD_extractLsb', decide_eq_true hj, Bool.true_and]
    exact hw j hj
  have e0 := slice 0 s.w0 fun j hj => by simp [permBus_getLsbD, hj]
  have e1 := slice 64 s.w1 fun j hj => by
    rw [permBus_getLsbD, if_neg (by omega), if_pos (by omega), Nat.add_sub_cancel_left]
  have e2 := slice 128 s.w2 fun j hj => by
    rw [permBus_getLsbD, if_neg (by omega), if_neg (by omega), if_pos (by omega), Nat.add_sub_cancel_left]
  have e3 := slice 192 s.w3 fun j hj => by
    rw [permBus_getLsbD, if_neg (by omega), if_neg (by omega), if_neg (by omega), if_pos (by omega),
      Nat.add_sub_cancel_left]
  have e4 := slice 256 s.w4 fun j hj => by
    rw [permBus_getLsbD, if_neg (by omega), if_neg (by omega), if_neg (by omega), if_neg (by omega),
      Nat.add_sub_cancel_left]
  simp only [ofPermBus, e0, e1, e2, e3, e4]

/-- What comes back over the port is `PERM` of what was sent: the words cross it unchanged (R65). -/
@[simp] theorem permute_eq (cfg : Cfg) (rounds : RoundCount) (s : Sponge) : permute cfg rounds s = cfg.perm s rounds := by
  simp only [permute, permUnit, permRequest, ofPermBus_permBus]

/-! The state words by number. -/

/-- Reading the word of one number after writing the word of another. -/
theorem wordAt_setWord (s : Sponge) (i j : Fin 5) (v : W64) :
    wordAt (setWord s j v) i = if i = j then v else wordAt s i := by
  fin_cases i <;> fin_cases j <;> rfl

/-- Word `i` of the answer bus (R65). -/
theorem wordAt_ofPermBus (v : BitVec 320) (i : Fin 5) : wordAt (ofPermBus v) i = v.extractLsb' (64 * i.val) 64 := by
  fin_cases i <;> rfl

end Sys2Proof.Machine
end

