-- ==== Sys2Proof/Laws/Decode.lean ====
section
/-! SUPPORT. The header fields of an encoded header, and what a decoded command says about its header (R71,
R75, R76). -/

namespace Sys2Proof

@[simp] theorem opField_headerOf (op : BitVec 4) (len : BitVec 5) (dir : BitVec 1) :
    opField (headerOf op len dir) = op := by
  revert op len dir; decide

@[simp] theorem lenField_headerOf (op : BitVec 4) (len : BitVec 5) (dir : BitVec 1) :
    lenField (headerOf op len dir) = len := by
  revert op len dir; decide

@[simp] theorem dirField_headerOf (op : BitVec 4) (len : BitVec 5) (dir : BitVec 1) :
    dirField (headerOf op len dir) = dir := by
  revert op len dir; decide

@[simp] theorem rsvField_headerOf (op : BitVec 4) (len : BitVec 5) (dir : BitVec 1) :
    rsvField (headerOf op len dir) = 0 := by
  revert op len dir; decide

/-- Bit `k` of a header, by the field it stands in (R71). -/
theorem header_getLsbD (h : BitVec 16) (k : Nat) (hk : k < 16) : h.getLsbD k =
    if k < 4 then (opField h).getLsbD k else if k < 9 then (lenField h).getLsbD (k - 4)
    else if k < 10 then (dirField h).getLsbD (k - 9) else (rsvField h).getLsbD (k - 10) := by
  simp only [opField, lenField, dirField, rsvField, BitVec.getLsbD_extractLsb']
  by_cases h1 : k < 4
  · simp [h1]
  · by_cases h2 : k < 9
    · simp [h1, h2, show k - 4 < 5 by omega, show 4 + (k - 4) = k by omega]
    · by_cases h3 : k < 10
      · simp [h1, h2, h3, show k - 9 < 1 by omega, show 9 + (k - 9) = k by omega]
      · simp [h1, h2, h3, show k - 10 < 6 by omega, show 10 + (k - 10) = k by omega]

/-- Headers with the same four fields are the same header. -/
theorem header_ext {h g : BitVec 16} (ho : opField h = opField g) (hl : lenField h = lenField g)
    (hd : dirField h = dirField g) (hr : rsvField h = rsvField g) : h = g := by
  apply BitVec.eq_of_getLsbD_eq
  intro k hk
  rw [header_getLsbD h k hk, header_getLsbD g k hk, ho, hl, hd, hr]

/-- A header with its reserved bits clear is put together from its fields (R71). -/
theorem headerOf_fields {h : BitVec 16} (hr : rsvField h = 0) :
    headerOf (opField h) (lenField h) (dirField h) = h :=
  header_ext (by simp) (by simp) (by simp) (by simp [hr])

@[simp] theorem Dir.ofBit_bit (d : Dir) : Dir.ofBit d.bit = d := by cases d <;> rfl

@[simp] theorem Dir.bit_ofBit (b : BitVec 1) : (Dir.ofBit b).bit = b := by revert b; decide

@[simp] theorem Dir.bit_eq_one (d : Dir) : d.bit = 1 ↔ d = .dec := by cases d <;> simp [Dir.bit]

/-- What a selected row says about the opcode, the length and the payload (R75). -/
theorem selectRow_some {op : BitVec 4} {dir : BitVec 1} {len : BitVec 5} {din : Lanes 20} {i : Instr}
    (h : selectRow op dir len din = some i) :
    i.opcode = op ∧ i.len = len ∧ (op = 2 → i.dirBit = dir) ∧ (op ≠ 2 → i.dirBit = 0) ∧
      (op ≠ 0 → op ≠ 9 → op ≠ 11 → op ≠ 12 → i.payload = din) := by
  have key : ∀ op : BitVec 4, op = BitVec.ofNat 4 op.toNat := fun op => by simp
  have hop := key op
  revert h
  unfold selectRow
  split <;> intro h <;> cases h <;> simp_all [Instr.opcode, Instr.len, Instr.dirBit, Instr.payload]

/-- A row is selected exactly for the opcodes 0x0 to 0xC (R75). -/
theorem selectRow_isSome (op : BitVec 4) (dir : BitVec 1) (len : BitVec 5) (din : Lanes 20) :
    (selectRow op dir len din).isSome ↔ op.toNat < 13 := by
  have hlt := op.isLt
  unfold selectRow
  split <;> simp_all
  omega

/-- When a header decodes, and to what fields (R76). -/
theorem decode_ok {c : Command} {i : Instr} (h : decode c = .ok i) :
    rsvField c.header = 0 ∧ (opField c.header).toNat < 13 ∧ (dirField c.header = 1 → opField c.header = 2) ∧
      i.opcode = opField c.header ∧ i.len = lenField c.header ∧ i.dirBit = dirField c.header ∧
      (opField c.header ≠ 0 → opField c.header ≠ 9 → opField c.header ≠ 11 → opField c.header ≠ 12 →
        i.payload = c.din) := by
  unfold decode at h
  split at h
  · cases h
  · rename_i hr
    split at h
    · cases h
    · rename_i j hj
      split at h
      · cases h
      · rename_i hd
        cases h
        obtain ⟨h1, h2, h3, h4, h5⟩ := selectRow_some hj
        have hop : (opField c.header).toNat < 13 := by
          rw [← selectRow_isSome _ (dirField c.header) (lenField c.header) c.din, hj]; rfl
        have hdir : dirField c.header = 1 → opField c.header = 2 := fun e => by
          by_contra hne; exact hd ⟨e, hne⟩
        refine ⟨by simpa using hr, hop, hdir, h1, h2, ?_, h5⟩
        by_cases e : opField c.header = 2
        · exact h3 e
        · rw [h4 e]
          have : ∀ b : BitVec 1, b ≠ 1 → b = 0 := by decide
          exact (this _ fun hb => e (hdir hb)).symm

/-- The header of a command that decodes is the header of the encoded command. -/
theorem decode_ok_header {c : Command} {i : Instr} (h : decode c = .ok i) : (encode i).header = c.header := by
  obtain ⟨hr, -, -, ho, hl, hd, -⟩ := decode_ok h
  rw [encode, ho, hl, hd, headerOf_fields hr]

/-- Checks 1 to 3 of R193 as the decoder makes them. -/
theorem decode_reserved {c : Command} (h : rsvField c.header ≠ 0) : decode c = .error .reservedBits := by
  rw [decode, if_pos h]

theorem decode_illegal {c : Command} (hr : rsvField c.header = 0) (h : 13 ≤ (opField c.header).toNat) :
    decode c = .error .illegalOp := by
  have hn : selectRow (opField c.header) (dirField c.header) (lenField c.header) c.din = none := by
    rw [← Option.not_isSome_iff_eq_none, selectRow_isSome]; omega
  rw [decode, if_neg (by simpa using hr), hn]

theorem decode_direction {c : Command} (hr : rsvField c.header = 0) (ho : (opField c.header).toNat < 13)
    (hd : dirField c.header = 1) (h2 : opField c.header ≠ 2) : decode c = .error .reservedBits := by
  obtain ⟨i, hi⟩ := Option.isSome_iff_exists.mp ((selectRow_isSome _ (dirField c.header) (lenField c.header) c.din).mpr ho)
  rw [decode, if_neg (by simpa using hr), hi]
  exact if_pos ⟨hd, h2⟩

/-- Every other header decodes (R75). -/
theorem decode_total {c : Command} (hr : rsvField c.header = 0) (ho : (opField c.header).toNat < 13)
    (hd : dirField c.header = 1 → opField c.header = 2) : ∃ i, decode c = .ok i := by
  obtain ⟨i, hi⟩ := Option.isSome_iff_exists.mp ((selectRow_isSome _ (dirField c.header) (lenField c.header) c.din).mpr ho)
  refine ⟨i, ?_⟩
  rw [decode, if_neg (by simpa using hr), hi]
  exact if_neg fun h => h.2 (hd h.1)

/-- What the decoder's refusals say about a header (R76). -/
theorem decode_error {c : Command} {e : FaultCode} (h : decode c = .error e) :
    rsvField c.header ≠ 0 ∧ e = .reservedBits ∨
      rsvField c.header = 0 ∧ 13 ≤ (opField c.header).toNat ∧ e = .illegalOp ∨
      rsvField c.header = 0 ∧ (opField c.header).toNat < 13 ∧ dirField c.header = 1 ∧ opField c.header ≠ 2 ∧
        e = .reservedBits := by
  by_cases hr : rsvField c.header = 0
  · by_cases ho : (opField c.header).toNat < 13
    · by_cases hd : dirField c.header = 1 → opField c.header = 2
      · obtain ⟨i, hi⟩ := decode_total hr ho hd
        rw [hi] at h; cases h
      · push Not at hd
        rw [decode_direction hr ho hd.1 hd.2] at h
        cases h; exact .inr (.inr ⟨hr, ho, hd.1, hd.2, rfl⟩)
    · rw [decode_illegal hr (by omega)] at h
      cases h; exact .inr (.inl ⟨hr, by omega, rfl⟩)
  · rw [decode_reserved hr] at h
    cases h; exact .inl ⟨hr, rfl⟩

/-- Headers are the same when their four fields are. -/
theorem header_eq_iff (h g : BitVec 16) : h = g ↔ opField h = opField g ∧ lenField h = lenField g ∧
    dirField h = dirField g ∧ rsvField h = rsvField g :=
  ⟨fun e => by subst e; simp, fun ⟨a, b, c, d⟩ => header_ext a b c d⟩

/-- Which headers a row of R75's table matches, by their fields. -/
theorem row_matches (h : BitVec 16) : ∀ r ∈ opTable, (h &&& r.mask = r.value ↔
    opField h = opField r.value ∧ (dirField h = 0 ∨ opField h = 2) ∧ rsvField h = 0) := by
  have f : ∀ r ∈ opTable, opField r.mask = 15 ∧ lenField r.mask = 0 ∧ rsvField r.mask = 63 ∧
      lenField r.value = 0 ∧ dirField r.value = 0 ∧ rsvField r.value = 0 ∧
      (dirField r.mask = 1 ∧ opField r.value ≠ 2 ∨ dirField r.mask = 0 ∧ opField r.value = 2) := by decide
  have a4 : ∀ x : BitVec 4, x &&& 15 = x := by decide
  have a6 : ∀ x : BitVec 6, x &&& 63 = x := by decide
  have a1 : ∀ x : BitVec 1, x &&& 1 = x := by decide
  have o : ∀ x y, opField (x &&& y) = opField x &&& opField y := fun _ _ => BitVec.extractLsb'_and
  have l : ∀ x y, lenField (x &&& y) = lenField x &&& lenField y := fun _ _ => BitVec.extractLsb'_and
  have d : ∀ x y, dirField (x &&& y) = dirField x &&& dirField y := fun _ _ => BitVec.extractLsb'_and
  have v : ∀ x y, rsvField (x &&& y) = rsvField x &&& rsvField y := fun _ _ => BitVec.extractLsb'_and
  intro r hr
  obtain ⟨f1, f2, f3, f4, f5, f6, f7⟩ := f r hr
  rw [header_eq_iff, o, l, d, v, f1, f2, f3, f4, f5, f6, a4, a6]
  rcases f7 with ⟨f7, f8⟩ | ⟨f7, f8⟩
  · rw [f7, a1]; constructor
    · rintro ⟨a, -, b, c⟩; exact ⟨a, .inl b, c⟩
    · rintro ⟨a, b, c⟩; exact ⟨a, by simp, b.resolve_right fun e => f8 (a ▸ e), c⟩
  · rw [f7, f8]; constructor
    · rintro ⟨a, -, -, c⟩; exact ⟨a, .inr a, c⟩
    · rintro ⟨a, b, c⟩; exact ⟨a, by simp, by simp, c⟩

/-- The rows a header selects (R75). -/
theorem selectedBy_eq (h : BitVec 16) : OpRow.selectedBy h =
    if (dirField h = 0 ∨ opField h = 2) ∧ rsvField h = 0 then
      opTable.filter (fun r => opField r.value == opField h) else [] := by
  unfold OpRow.selectedBy
  split
  · rename_i c
    apply List.filter_congr
    intro r hr
    rw [Bool.eq_iff_iff, beq_iff_eq, beq_iff_eq, row_matches h r hr]
    exact ⟨fun x => x.1.symm, fun x => ⟨x.symm, c⟩⟩
  · rename_i c
    rw [List.filter_eq_nil_iff]
    intro r hr
    rw [beq_iff_eq, row_matches h r hr]
    exact fun x => c x.2

/-- Commands with the same header are refused alike, or decode to the same row, length and direction. -/
theorem decode_same_header {c c' : Command} (h : c.header = c'.header) :
    (∃ e, decode c = .error e ∧ decode c' = .error e) ∨
      ∃ i i', decode c = .ok i ∧ decode c' = .ok i' ∧ i.opcode = i'.opcode ∧ i.len = i'.len ∧
        i.dirBit = i'.dirBit := by
  by_cases hr : rsvField c.header = 0
  · by_cases ho : (opField c.header).toNat < 13
    · by_cases hd : dirField c.header = 1 → opField c.header = 2
      · obtain ⟨i, hi⟩ := decode_total hr ho hd
        obtain ⟨i', hi'⟩ := decode_total (c := c') (h ▸ hr) (h ▸ ho) (h ▸ hd)
        obtain ⟨-, -, -, a1, a2, a3, -⟩ := decode_ok hi
        obtain ⟨-, -, -, b1, b2, b3, -⟩ := decode_ok hi'
        exact .inr ⟨i, i', hi, hi', by rw [a1, b1, h], by rw [a2, b2, h], by rw [a3, b3, h]⟩
      · push Not at hd
        exact .inl ⟨_, decode_direction hr ho hd.1 hd.2,
          decode_direction (c := c') (h ▸ hr) (h ▸ ho) (h ▸ hd.1) (h ▸ hd.2)⟩
    · exact .inl ⟨_, decode_illegal hr (by omega), decode_illegal (c := c') (h ▸ hr) (h ▸ (by omega))⟩
  · exact .inl ⟨_, decode_reserved hr, decode_reserved (c := c') (h ▸ hr)⟩

/-- Commands with the same row, length and direction differ at most in their payload. -/
theorem same_row {i i' : Instr} (ho : i.opcode = i'.opcode) (hl : i.len = i'.len) (hd : i.dirBit = i'.dirBit) :
    (∃ len, (i = .stat len ∨ i = .finenc len ∨ i = .rdpt len ∨ i = .scrub len) ∧ i' = i) ∨
    (∃ len din din', i = .ldkey len din ∧ i' = .ldkey len din') ∨
    (∃ dir len din din', i = .init dir len din ∧ i' = .init dir len din') ∨
    (∃ len din din', i = .adblk len din ∧ i' = .adblk len din') ∨
    (∃ len din din', i = .adlast len din ∧ i' = .adlast len din') ∨
    (∃ len din din', i = .encblk len din ∧ i' = .encblk len din') ∨
    (∃ len din din', i = .enclast len din ∧ i' = .enclast len din') ∨
    (∃ len din din', i = .decblk len din ∧ i' = .decblk len din') ∨
    (∃ len din din', i = .declast len din ∧ i' = .declast len din') ∨
    (∃ len din din', i = .findec len din ∧ i' = .findec len din') := by
  have hdir : ∀ d d' : Dir, d.bit = d'.bit → d = d' := by intro d d' h; cases d <;> cases d' <;> simp_all [Dir.bit]
  cases i <;> cases i' <;> first | (exfalso; simp [Instr.opcode] at ho; done) | skip
  all_goals
    simp only [Instr.len, Instr.dirBit] at hl hd
    try have hd := hdir _ _ hd
    subst hl
    try subst hd
    simp

end Sys2Proof
end

