-- ==== Sys2Proof/Laws/Memory.lean ====
section
/-! SUPPORT. The hold buffer: reads after writes, and that every operation keeps the canonical form (R58). -/

namespace Sys2Proof.Machine

@[simp] theorem Memory.read_nil (a : Nat) : Memory.read [] a = 0 := rfl

@[simp] theorem Memory.unlisted_eq : Memory.unlisted = 0#8 := rfl

@[simp] theorem Memory.wf_nil : Memory.wf [] = true := rfl

/-- The head of a canonical memory is below every other entry, and the tail is canonical. -/
theorem Memory.wf_cons {k : Nat} {v : Byte} {m : Memory} :
    Memory.wf ((k, v) :: m) = true ↔ v ≠ 0 ∧ (∀ e ∈ m.head?, k < e.1) ∧ Memory.wf m = true := by
  cases m with
  | nil => simp [Memory.wf]
  | cons d m => simp [Memory.wf, Memory.unlisted, and_assoc]

/-- Below its first entry a canonical memory reads as zero. -/
theorem Memory.read_below {m : Memory} {a : Nat} (h : m.wf = true) (ha : ∀ e ∈ m.head?, a < e.1) :
    m.read a = 0 := by
  induction m with
  | nil => rfl
  | cons d m ih =>
    obtain ⟨k, v⟩ := d
    obtain ⟨-, hk, hm⟩ := Memory.wf_cons.mp h
    have hak : a < k := ha (k, v) rfl
    have : k ≠ a := by omega
    simp only [Memory.read, if_neg this]
    exact ih hm fun e he => Nat.lt_trans hak (hk e he)

/-- A read after a write to the same offset gives the byte written. -/
theorem Memory.read_write_same {m : Memory} (h : m.wf = true) (a : Nat) (b : Byte) :
    (m.write a b).read a = b := by
  induction m with
  | nil => by_cases hb : b = 0#8 <;> simp [Memory.write, Memory.read, hb]
  | cons d m ih =>
    obtain ⟨k, v⟩ := d
    obtain ⟨-, hk, hm⟩ := Memory.wf_cons.mp h
    by_cases h1 : a < k
    · have hka : k ≠ a := by omega
      by_cases hb : b = 0#8
      · have := Memory.read_below h (a := a) (by simpa using h1)
        simpa [Memory.write, h1, hb] using this
      · simp [Memory.write, h1, hb, Memory.read]
    · by_cases h2 : a = k
      · subst h2
        by_cases hb : b = 0#8
        · simpa [Memory.write, hb] using Memory.read_below hm hk
        · simp [Memory.write, hb, Memory.read]
      · have hka : k ≠ a := fun e => h2 e.symm
        simp [Memory.write, h1, h2, Memory.read, hka, ih hm]

/-- A write leaves every other offset as it was. -/
theorem Memory.read_write_other {m : Memory} {a a' : Nat} (b : Byte) (hne : a' ≠ a) :
    (m.write a b).read a' = m.read a' := by
  induction m with
  | nil => by_cases hb : b = 0#8 <;> simp [Memory.write, Memory.read, hb, hne.symm]
  | cons d m ih =>
    obtain ⟨k, v⟩ := d
    by_cases h1 : a < k
    · by_cases hb : b = 0#8 <;> simp [Memory.write, h1, hb, Memory.read, hne.symm]
    · by_cases h2 : a = k
      · subst h2
        by_cases hb : b = 0#8 <;> simp [Memory.write, hb, Memory.read, hne.symm]
      · simp [Memory.write, h1, h2, Memory.read, ih]

/-- The first entry after a write is the entry written or the first entry before. -/
theorem Memory.write_head {m : Memory} {a j : Nat} {b : Byte} (h : m.wf = true) (hj : j < a)
    (hm : ∀ e ∈ m.head?, j < e.1) : ∀ e ∈ (m.write a b).head?, j < e.1 := by
  cases m with
  | nil => by_cases hb : b = 0#8 <;> simp [Memory.write, hb, hj]
  | cons d m =>
    obtain ⟨k, v⟩ := d
    obtain ⟨-, hk, -⟩ := Memory.wf_cons.mp h
    have hjk : j < k := hm (k, v) rfl
    by_cases h1 : a < k
    · by_cases hb : b = 0#8 <;> simp [Memory.write, h1, hb, hj, hjk]
    · by_cases h2 : a = k
      · subst h2
        by_cases hb : b = 0#8
        · simp only [Memory.write, Memory.unlisted_eq, hb, lt_irrefl, if_false, if_true]
          exact fun e he => Nat.lt_trans hjk (hk e he)
        · simp [Memory.write, hb, hj]
      · simp [Memory.write, h1, h2, hjk]

/-- A write keeps the canonical form. -/
theorem Memory.write_wf {m : Memory} (h : m.wf = true) (a : Nat) (b : Byte) : (m.write a b).wf = true := by
  induction m with
  | nil => by_cases hb : b = 0#8 <;> simp [Memory.write, Memory.wf, hb]
  | cons d m ih =>
    obtain ⟨k, v⟩ := d
    obtain ⟨hv, hk, hm⟩ := Memory.wf_cons.mp h
    by_cases h1 : a < k
    · by_cases hb : b = 0#8
      · simpa [Memory.write, h1, hb] using h
      · simp only [Memory.write, Memory.unlisted_eq, h1, hb, if_true, if_false]
        exact Memory.wf_cons.mpr ⟨hb, by simpa using h1, h⟩
    · by_cases h2 : a = k
      · subst h2
        by_cases hb : b = 0#8
        · simpa [Memory.write, hb] using hm
        · simp only [Memory.write, Memory.unlisted_eq, hb, lt_irrefl, if_true, if_false]
          exact Memory.wf_cons.mpr ⟨hb, hk, hm⟩
      · simp only [Memory.write, h1, h2, if_false]
        exact Memory.wf_cons.mpr ⟨hv, Memory.write_head hm (by omega) hk, ih hm⟩

/-- Canonical memories that read the same are the same. -/
theorem Memory.ext {m n : Memory} (hm : m.wf = true) (hn : n.wf = true) (h : ∀ a, m.read a = n.read a) :
    m = n := by
  induction m generalizing n with
  | nil =>
    cases n with
    | nil => rfl
    | cons e n =>
      obtain ⟨l, w⟩ := e
      have hw := (Memory.wf_cons.mp hn).1
      have := h l
      simp [Memory.read] at this
      exact absurd this.symm hw
  | cons d m ih =>
    obtain ⟨k, v⟩ := d
    obtain ⟨hv, hk, hm'⟩ := Memory.wf_cons.mp hm
    cases n with
    | nil =>
      have := h k
      simp [Memory.read] at this
      exact absurd this hv
    | cons e n =>
      obtain ⟨l, w⟩ := e
      obtain ⟨hw, hl, hn'⟩ := Memory.wf_cons.mp hn
      have hkl : k = l := by
        rcases Nat.lt_trichotomy k l with hlt | heq | hgt
        · have h1 := h k
          rw [Memory.read_below hn (by simpa using hlt)] at h1
          simp [Memory.read] at h1
          exact absurd h1 hv
        · exact heq
        · have h1 := h l
          rw [Memory.read_below hm (by simpa using hgt)] at h1
          simp [Memory.read] at h1
          exact absurd h1.symm hw
      subst hkl
      have hvw : v = w := by simpa [Memory.read] using h k
      subst hvw
      have : m = n := ih hm' hn' fun a => by
        by_cases hka : k = a
        · subst hka; rw [Memory.read_below hm' hk, Memory.read_below hn' hl]
        · simpa [Memory.read, hka] using h a
      rw [this]

/-- `MemWrite` keeps the canonical form. -/
theorem memWrite_wf {m : Memory} (h : m.wf = true) (a : Nat) (bs : List Byte) : (memWrite m a bs).wf = true := by
  induction bs generalizing m a with
  | nil => exact h
  | cons b bs ih => exact ih (Memory.write_wf h a b) (a + 1)

/-- `MemWrite` leaves every offset outside the bytes it stores as it was. -/
theorem memWrite_read_outside {m : Memory} {a k : Nat} {bs : List Byte} (hk : k < a ∨ a + bs.length ≤ k) :
    (memWrite m a bs).read k = m.read k := by
  induction bs generalizing m a with
  | nil => rfl
  | cons b bs ih =>
    simp only [List.length_cons] at hk
    rw [memWrite, ih (by omega), Memory.read_write_other b (by omega)]

/-- `MemWrite` stores byte `j` at offset `a + j`. -/
theorem memWrite_read_inside {m : Memory} (h : m.wf = true) {a j : Nat} {bs : List Byte} (hj : j < bs.length) :
    (memWrite m a bs).read (a + j) = bs[j] := by
  induction bs generalizing m a j with
  | nil => simp at hj
  | cons b bs ih =>
    cases j with
    | zero =>
      rw [memWrite, memWrite_read_outside (by omega)]
      simpa using Memory.read_write_same h a b
    | succ j =>
      have := ih (Memory.write_wf h a b) (a := a + 1) (j := j) (by simpa using hj)
      simpa [memWrite, Nat.add_assoc, Nat.add_comm 1 j] using this

/-- `MemRead` answers exactly when the bytes exist, and answers the bytes in order. -/
theorem memRead_eq_some {cfg : Cfg} {m : Memory} {a n : Nat} (h : n = 0 ∨ a + n ≤ cfg.pbufBytes.val) :
    memRead cfg m a n = some ((List.range n).map fun j => m.read (a + j)) := by
  simp only [memRead, if_pos h]

/-- `MemRead` reads back what `MemWrite` stored. -/
theorem memRead_memWrite {m : Memory} (h : m.wf = true) (a : Nat) (bs : List Byte) :
    ((List.range bs.length).map fun j => (memWrite m a bs).read (a + j)) = bs := by
  apply List.ext_getElem (by simp)
  intro j h1 h2
  simpa using memWrite_read_inside h h2

/-- Two stores side by side are one store. -/
theorem memWrite_append (m : Memory) (a : Nat) (bs cs : List Byte) :
    memWrite m a (bs ++ cs) = memWrite (memWrite m a bs) (a + bs.length) cs := by
  induction bs generalizing m a with
  | nil => rfl
  | cons b bs ih =>
    simp only [List.cons_append, memWrite, List.length_cons, ih]
    congr 1; omega

end Sys2Proof.Machine
end

