-- ==== Sys2Proof/Laws/State.lean ====
section
/-! SUPPORT. One lemma per field for every update of the state, so that no proof unfolds a record update; and
the two updates that leave a state known in full (fault entry, discarding an operation). -/

namespace Sys2Proof.Machine

/-! Updates of the machine state. -/

@[simp] theorem State.respond_toArch (r : Response) (s : State) : (s.respond r).toArch = s.toArch := rfl
@[simp] theorem State.respond_inbox (r : Response) (s : State) : (s.respond r).inbox = s.inbox := rfl
@[simp] theorem State.respond_outbox (r : Response) (s : State) : (s.respond r).outbox = s.outbox ++ [r] := rfl
@[simp] theorem State.complete_toArch (e : Arch × Response) (s : State) : (s.complete e).toArch = e.1 := rfl
@[simp] theorem State.complete_inbox (e : Arch × Response) (s : State) : (s.complete e).inbox = s.inbox := rfl
@[simp] theorem State.complete_outbox (e : Arch × Response) (s : State) :
    (s.complete e).outbox = s.outbox ++ [e.2] := rfl
@[simp] theorem State.raiseFault_inbox (c : FaultCode) (s : State) : (s.raiseFault c).inbox = s.inbox := rfl
@[simp] theorem State.raiseFault_toArch (c : FaultCode) (s : State) :
    (s.raiseFault c).toArch = faultEntry c s.toArch := rfl
@[simp] theorem State.raiseFault_outbox (c : FaultCode) (s : State) :
    (s.raiseFault c).outbox = s.outbox ++ [faultResponse] := rfl
@[simp] theorem State.hardwareReset_inbox (s : State) : s.hardwareReset.inbox = s.inbox := rfl
@[simp] theorem State.hardwareReset_outbox (s : State) : s.hardwareReset.outbox = s.outbox := rfl
@[simp] theorem State.withFetchWord_toArch (s : State) (n w : Nat) :
    (s.withFetchWord n w).toArch = s.toArch := rfl
@[simp] theorem State.withFetchWord_inbox (s : State) (n w : Nat) :
    (s.withFetchWord n w).inbox = .command (Command.ofBits (w % 2 ^ n)) :: s.inbox := rfl
@[simp] theorem State.withFetchWord_outbox (s : State) (n w : Nat) :
    (s.withFetchWord n w).outbox = s.outbox := rfl

/-! Updates known in full. -/

/-- Fault entry leaves the reset state but for `PHASE`, `ERR`, `ERRCODE` (R192). -/
theorem faultEntry_eq (c : FaultCode) (a : Arch) :
    faultEntry c a = { Arch.reset with phase := .finalized, err := true, errCode := some c } := rfl

/-- Discarding an operation leaves the reset state (R157, R221). -/
@[simp] theorem discardOperation_eq (a : Arch) : discardOperation a = Arch.reset := rfl

@[simp] theorem State.hardwareReset_toArch (s : State) : s.hardwareReset.toArch = Arch.reset := rfl

/-! The reset values (R36). -/

@[simp] theorem Arch.reset_S : Arch.reset.S = Sponge.zero := rfl
@[simp] theorem Arch.reset_K : Arch.reset.K = KeyFile.zero := rfl
@[simp] theorem Arch.reset_phase : Arch.reset.phase = .uninitialized := rfl
@[simp] theorem Arch.reset_kvalid : Arch.reset.kvalid = false := rfl
@[simp] theorem Arch.reset_dir : Arch.reset.dir = .enc := rfl
@[simp] theorem Arch.reset_ddone : Arch.reset.ddone = false := rfl
@[simp] theorem Arch.reset_authOk : Arch.reset.authOk = false := rfl
@[simp] theorem Arch.reset_authFail : Arch.reset.authFail = false := rfl
@[simp] theorem Arch.reset_authCause : Arch.reset.authCause = .tagMismatch := rfl
@[simp] theorem Arch.reset_err : Arch.reset.err = false := rfl
@[simp] theorem Arch.reset_errCode : Arch.reset.errCode = none := rfl
@[simp] theorem Arch.reset_plen : Arch.reset.plen = 0 := rfl
@[simp] theorem Arch.reset_prd : Arch.reset.prd = 0 := rfl
@[simp] theorem Arch.reset_pbuf : Arch.reset.pbuf = [] := rfl

/-! Fault entry (R192). -/

@[simp] theorem faultEntry_S (c : FaultCode) (a : Arch) : (faultEntry c a).S = Sponge.zero := rfl
@[simp] theorem faultEntry_K (c : FaultCode) (a : Arch) : (faultEntry c a).K = KeyFile.zero := rfl
@[simp] theorem faultEntry_phase (c : FaultCode) (a : Arch) : (faultEntry c a).phase = .finalized := rfl
@[simp] theorem faultEntry_kvalid (c : FaultCode) (a : Arch) : (faultEntry c a).kvalid = false := rfl
@[simp] theorem faultEntry_dir (c : FaultCode) (a : Arch) : (faultEntry c a).dir = .enc := rfl
@[simp] theorem faultEntry_ddone (c : FaultCode) (a : Arch) : (faultEntry c a).ddone = false := rfl
@[simp] theorem faultEntry_authOk (c : FaultCode) (a : Arch) : (faultEntry c a).authOk = false := rfl
@[simp] theorem faultEntry_authFail (c : FaultCode) (a : Arch) : (faultEntry c a).authFail = false := rfl
@[simp] theorem faultEntry_authCause (c : FaultCode) (a : Arch) : (faultEntry c a).authCause = .tagMismatch := rfl
@[simp] theorem faultEntry_err (c : FaultCode) (a : Arch) : (faultEntry c a).err = true := rfl
@[simp] theorem faultEntry_errCode (c : FaultCode) (a : Arch) : (faultEntry c a).errCode = some c := rfl
@[simp] theorem faultEntry_plen (c : FaultCode) (a : Arch) : (faultEntry c a).plen = 0 := rfl
@[simp] theorem faultEntry_prd (c : FaultCode) (a : Arch) : (faultEntry c a).prd = 0 := rfl
@[simp] theorem faultEntry_pbuf (c : FaultCode) (a : Arch) : (faultEntry c a).pbuf = [] := rfl

/-! Zeroization (R145). -/

@[simp] theorem zeroizeSecrets_S (a : Arch) : (zeroizeSecrets a).S = Sponge.zero := rfl
@[simp] theorem zeroizeSecrets_K (a : Arch) : (zeroizeSecrets a).K = KeyFile.zero := rfl
@[simp] theorem zeroizeSecrets_phase (a : Arch) : (zeroizeSecrets a).phase = a.phase := rfl
@[simp] theorem zeroizeSecrets_kvalid (a : Arch) : (zeroizeSecrets a).kvalid = false := rfl
@[simp] theorem zeroizeSecrets_dir (a : Arch) : (zeroizeSecrets a).dir = a.dir := rfl
@[simp] theorem zeroizeSecrets_ddone (a : Arch) : (zeroizeSecrets a).ddone = a.ddone := rfl
@[simp] theorem zeroizeSecrets_authOk (a : Arch) : (zeroizeSecrets a).authOk = a.authOk := rfl
@[simp] theorem zeroizeSecrets_authFail (a : Arch) : (zeroizeSecrets a).authFail = a.authFail := rfl
@[simp] theorem zeroizeSecrets_authCause (a : Arch) : (zeroizeSecrets a).authCause = a.authCause := rfl
@[simp] theorem zeroizeSecrets_err (a : Arch) : (zeroizeSecrets a).err = a.err := rfl
@[simp] theorem zeroizeSecrets_errCode (a : Arch) : (zeroizeSecrets a).errCode = a.errCode := rfl
@[simp] theorem zeroizeSecrets_plen (a : Arch) : (zeroizeSecrets a).plen = a.plen := rfl
@[simp] theorem zeroizeSecrets_prd (a : Arch) : (zeroizeSecrets a).prd = a.prd := rfl
@[simp] theorem zeroizeSecrets_pbuf (a : Arch) : (zeroizeSecrets a).pbuf = a.pbuf := rfl

@[simp] theorem zeroizeBuffer_S (a : Arch) : (zeroizeBuffer a).S = a.S := rfl
@[simp] theorem zeroizeBuffer_K (a : Arch) : (zeroizeBuffer a).K = a.K := rfl
@[simp] theorem zeroizeBuffer_phase (a : Arch) : (zeroizeBuffer a).phase = a.phase := rfl
@[simp] theorem zeroizeBuffer_kvalid (a : Arch) : (zeroizeBuffer a).kvalid = a.kvalid := rfl
@[simp] theorem zeroizeBuffer_dir (a : Arch) : (zeroizeBuffer a).dir = a.dir := rfl
@[simp] theorem zeroizeBuffer_ddone (a : Arch) : (zeroizeBuffer a).ddone = a.ddone := rfl
@[simp] theorem zeroizeBuffer_authOk (a : Arch) : (zeroizeBuffer a).authOk = a.authOk := rfl
@[simp] theorem zeroizeBuffer_authFail (a : Arch) : (zeroizeBuffer a).authFail = a.authFail := rfl
@[simp] theorem zeroizeBuffer_authCause (a : Arch) : (zeroizeBuffer a).authCause = a.authCause := rfl
@[simp] theorem zeroizeBuffer_err (a : Arch) : (zeroizeBuffer a).err = a.err := rfl
@[simp] theorem zeroizeBuffer_errCode (a : Arch) : (zeroizeBuffer a).errCode = a.errCode := rfl
@[simp] theorem zeroizeBuffer_plen (a : Arch) : (zeroizeBuffer a).plen = 0 := rfl
@[simp] theorem zeroizeBuffer_prd (a : Arch) : (zeroizeBuffer a).prd = 0 := rfl
@[simp] theorem zeroizeBuffer_pbuf (a : Arch) : (zeroizeBuffer a).pbuf = [] := rfl

/-! Entry of an `AuthenticationFailure` (R191). -/

@[simp] theorem authFailureEntry_S (c : AuthCause) (a : Arch) : (authFailureEntry c a).S = Sponge.zero := rfl
@[simp] theorem authFailureEntry_K (c : AuthCause) (a : Arch) : (authFailureEntry c a).K = KeyFile.zero := rfl
@[simp] theorem authFailureEntry_phase (c : AuthCause) (a : Arch) : (authFailureEntry c a).phase = .finalized := rfl
@[simp] theorem authFailureEntry_kvalid (c : AuthCause) (a : Arch) : (authFailureEntry c a).kvalid = false := rfl
@[simp] theorem authFailureEntry_dir (c : AuthCause) (a : Arch) : (authFailureEntry c a).dir = a.dir := rfl
@[simp] theorem authFailureEntry_ddone (c : AuthCause) (a : Arch) : (authFailureEntry c a).ddone = a.ddone := rfl
@[simp] theorem authFailureEntry_authOk (c : AuthCause) (a : Arch) : (authFailureEntry c a).authOk = a.authOk := rfl
@[simp] theorem authFailureEntry_authFail (c : AuthCause) (a : Arch) : (authFailureEntry c a).authFail = true := rfl
@[simp] theorem authFailureEntry_authCause (c : AuthCause) (a : Arch) : (authFailureEntry c a).authCause = c := rfl
@[simp] theorem authFailureEntry_err (c : AuthCause) (a : Arch) : (authFailureEntry c a).err = a.err := rfl
@[simp] theorem authFailureEntry_errCode (c : AuthCause) (a : Arch) : (authFailureEntry c a).errCode = a.errCode := rfl
@[simp] theorem authFailureEntry_plen (c : AuthCause) (a : Arch) : (authFailureEntry c a).plen = 0 := rfl
@[simp] theorem authFailureEntry_prd (c : AuthCause) (a : Arch) : (authFailureEntry c a).prd = 0 := rfl
@[simp] theorem authFailureEntry_pbuf (c : AuthCause) (a : Arch) : (authFailureEntry c a).pbuf = [] := rfl

/-! Holding recovered plaintext (R130, R131). -/

@[simp] theorem holdPlaintext_S (p : List Byte) (a : Arch) : (holdPlaintext p a).S = a.S := rfl
@[simp] theorem holdPlaintext_K (p : List Byte) (a : Arch) : (holdPlaintext p a).K = a.K := rfl
@[simp] theorem holdPlaintext_phase (p : List Byte) (a : Arch) : (holdPlaintext p a).phase = a.phase := rfl
@[simp] theorem holdPlaintext_kvalid (p : List Byte) (a : Arch) : (holdPlaintext p a).kvalid = a.kvalid := rfl
@[simp] theorem holdPlaintext_dir (p : List Byte) (a : Arch) : (holdPlaintext p a).dir = a.dir := rfl
@[simp] theorem holdPlaintext_ddone (p : List Byte) (a : Arch) : (holdPlaintext p a).ddone = a.ddone := rfl
@[simp] theorem holdPlaintext_authOk (p : List Byte) (a : Arch) : (holdPlaintext p a).authOk = a.authOk := rfl
@[simp] theorem holdPlaintext_authFail (p : List Byte) (a : Arch) : (holdPlaintext p a).authFail = a.authFail := rfl
@[simp] theorem holdPlaintext_authCause (p : List Byte) (a : Arch) : (holdPlaintext p a).authCause = a.authCause := rfl
@[simp] theorem holdPlaintext_err (p : List Byte) (a : Arch) : (holdPlaintext p a).err = a.err := rfl
@[simp] theorem holdPlaintext_errCode (p : List Byte) (a : Arch) : (holdPlaintext p a).errCode = a.errCode := rfl
@[simp] theorem holdPlaintext_plen (p : List Byte) (a : Arch) : (holdPlaintext p a).plen = a.plen + BitVec.ofNat 32 p.length := rfl
@[simp] theorem holdPlaintext_prd (p : List Byte) (a : Arch) : (holdPlaintext p a).prd = a.prd := rfl
@[simp] theorem holdPlaintext_pbuf (p : List Byte) (a : Arch) : (holdPlaintext p a).pbuf = memWrite a.pbuf a.plen.toNat p := rfl

end Sys2Proof.Machine
end

