-- ==== Sys2Proof/Laws/Checks.lean ====
section
/-! SUPPORT. What the checks decide (R193, R195), and once and for all what executing a command can do: every
meaning is the checks followed by one effect. -/

namespace Sys2Proof.Machine

/-- Step 7 of R193 for every command; `none` stands for a read outside `PBUF` (log 10). -/
def effectOf (cfg : Cfg) : Instr → Arch → Option (Arch × Response)
  | .stat _, a => some (statEffect cfg a)
  | .ldkey _ din, a => some (ldkeyEffect cfg din a)
  | .init dir _ din, a => some (initEffect cfg dir din a)
  | .adblk len din, a => some (adblkEffect cfg len din a)
  | .adlast len din, a => some (adlastEffect cfg len din a)
  | .encblk len din, a => some (encblkEffect cfg len din a)
  | .enclast len din, a => some (enclastEffect cfg len din a)
  | .decblk len din, a => some (decblkEffect cfg len din a)
  | .declast len din, a => some (declastEffect cfg len din a)
  | .finenc _, a => some (finencEffect cfg a)
  | .findec len din, a => some (findecEffect cfg len din a)
  | .rdpt len, a => rdptEffect cfg len a
  | .scrub _, a => some (scrubEffect a)

/-- A command that always completes, seen as one that may not. -/
theorem runReading_some (cfg : Cfg) (i : Instr) (f : Arch → Arch × Response) (s : State) :
    runReading cfg i (fun a => some (f a)) s = .next (runChecked cfg i f s) := by
  unfold runReading runChecked
  split <;> rfl

/-- Every meaning is the checks of R193 followed by the command's effect. -/
theorem execIn_eq (cfg : Cfg) (i : Instr) (s : State) :
    execIn cfg i s = runReading cfg i (effectOf cfg i) s := by
  cases i <;> first | exact (runReading_some _ _ _ s).symm | rfl

/-- The machine's meanings are those of the configured instance. -/
theorem exec_eq (i : Instr) (s : State) : exec i s = execIn Config.cfg i s := by
  cases i <;> rfl

/-- The machine's step is that of the configured instance. -/
theorem step_eq (s : State) : step s = stepIn Config.cfg s := by
  unfold step stepIn
  simp only [exec_eq] <;> rfl

/-! Verdicts. -/

theorem verdict_refuse {cfg : Cfg} {a : Arch} {i : Instr} (he : a.err = true) (hs : servedInError i = false) :
    verdict cfg a i = .refuse := by simp [verdict, he, hs]

theorem verdict_badLen {cfg : Cfg} {a : Arch} {i : Instr} (he : a.err = false ∨ servedInError i = true)
    (hl : lenLegal cfg.rate i = false) : verdict cfg a i = .fault .badLen := by
  rcases he with he | he <;> simp [verdict, he, hl]

theorem verdict_badPhase {cfg : Cfg} {a : Arch} {i : Instr} (he : a.err = false)
    (hl : lenLegal cfg.rate i = true) (ha : acceptedNow a i = false) :
    verdict cfg a i = .fault .badPhase := by simp [verdict, he, hl, ha]

theorem verdict_overflow {cfg : Cfg} {a : Arch} {i : Instr} (he : a.err = false)
    (hl : lenLegal cfg.rate i = true) (ha : acceptedNow a i = true) (hf : fitsBuffer cfg a i = false) :
    verdict cfg a i = .fault .pbufOverflow := by simp [verdict, he, hl, ha, hf]

/-- A command is executed exactly when every check passes (R193). -/
theorem verdict_execute {cfg : Cfg} {a : Arch} {i : Instr} : verdict cfg a i = .execute ↔
    (a.err = false ∨ servedInError i = true) ∧ lenLegal cfg.rate i = true ∧ acceptedNow a i = true ∧
      fitsBuffer cfg a i = true := by
  unfold verdict
  cases a.err <;> cases servedInError i <;> cases lenLegal cfg.rate i <;> cases acceptedNow a i <;>
    cases fitsBuffer cfg a i <;> simp

/-- What each verdict makes of a command. -/
theorem execIn_of_refuse {cfg : Cfg} {i : Instr} {s : State} (h : verdict cfg s.toArch i = .refuse) :
    execIn cfg i s = .next (s.respond faultResponse) := by
  rw [execIn_eq, runReading, h]

theorem execIn_of_fault {cfg : Cfg} {i : Instr} {s : State} {c : FaultCode}
    (h : verdict cfg s.toArch i = .fault c) : execIn cfg i s = .next (s.raiseFault c) := by
  rw [execIn_eq, runReading, h]

theorem execIn_of_execute {cfg : Cfg} {i : Instr} {s : State} {e : Arch × Response}
    (h : verdict cfg s.toArch i = .execute) (he : effectOf cfg i s.toArch = some e) :
    execIn cfg i s = .next (s.complete e) := by
  rw [execIn_eq, runReading, h]
  simp only [he]

/-- Everything a meaning that answers a next state can have done. -/
theorem execIn_next {cfg : Cfg} {i : Instr} {s t : State} (h : execIn cfg i s = .next t) :
    (verdict cfg s.toArch i = .refuse ∧ t = s.respond faultResponse) ∨
      (∃ c, verdict cfg s.toArch i = .fault c ∧ t = s.raiseFault c) ∨
      (verdict cfg s.toArch i = .execute ∧ ∃ e, effectOf cfg i s.toArch = some e ∧ t = s.complete e) := by
  cases hv : verdict cfg s.toArch i with
  | refuse => rw [execIn_of_refuse hv] at h; cases h; exact .inl ⟨rfl, rfl⟩
  | fault c => rw [execIn_of_fault hv] at h; cases h; exact .inr (.inl ⟨c, rfl, rfl⟩)
  | execute =>
    cases he : effectOf cfg i s.toArch with
    | some e => rw [execIn_of_execute hv he] at h; cases h; exact .inr (.inr ⟨rfl, e, rfl, rfl⟩)
    | none => rw [execIn_eq, runReading, hv] at h; simp [he] at h

/-- A read within the buffer always has its effect (R156). -/
theorem rdptEffect_some {cfg : Cfg} {len : BitVec 5} {a : Arch} (hp : a.plen.toNat ≤ cfg.pbufBytes.val) :
    rdptEffect cfg len a = some ({ a with prd := a.prd + BitVec.ofNat 32 (readCount len a) },
      okResponse ((List.range (readCount len a)).map fun j => a.pbuf.read (a.prd.toNat + j))) := by
  have h : readCount len a = 0 ∨ a.prd.toNat + readCount len a ≤ cfg.pbufBytes.val := by
    unfold readCount; omega
  rw [rdptEffect, memRead_eq_some h]

/-- Where `PLEN` is within the buffer every command has a next state. -/
theorem execIn_total {cfg : Cfg} (i : Instr) (s : State) (hp : s.plen.toNat ≤ cfg.pbufBytes.val) :
    ∃ t, execIn cfg i s = .next t := by
  cases hv : verdict cfg s.toArch i with
  | refuse => exact ⟨_, execIn_of_refuse hv⟩
  | fault c => exact ⟨_, execIn_of_fault hv⟩
  | execute =>
    have : ∃ e, effectOf cfg i s.toArch = some e := by
      cases i with
      | rdpt len => exact ⟨_, rdptEffect_some hp⟩
      | _ => exact ⟨_, rfl⟩
    obtain ⟨e, he⟩ := this
    exact ⟨_, execIn_of_execute hv he⟩

/-- Everything a step that answers a next state can have done. -/
theorem stepIn_next {cfg : Cfg} {s t : State} (h : stepIn cfg s = .next t) :
    (s.inbox = [] ∧ t = s) ∨
      (∃ rest, s.inbox = .reset :: rest ∧
        t = { toArch := Arch.reset, inbox := rest, outbox := s.outbox }) ∨
      (∃ c rest e, s.inbox = .command c :: rest ∧ decode c = .error e ∧
        t = State.rejectHeader e { s with inbox := rest }) ∨
      (∃ c rest i, s.inbox = .command c :: rest ∧ decode c = .ok i ∧
        execIn cfg i { s with inbox := rest } = .next t) := by
  unfold stepIn at h
  split at h
  · rename_i hi; cases h; exact .inl ⟨hi, rfl⟩
  · rename_i rest hi; cases h; exact .inr (.inl ⟨rest, hi, rfl⟩)
  · rename_i c rest hi
    split at h
    · rename_i i hd; exact .inr (.inr (.inr ⟨c, rest, i, hi, hd, h⟩))
    · rename_i e hd; cases h; exact .inr (.inr (.inl ⟨c, rest, e, hi, hd, rfl⟩))

/-! Responses. -/

@[simp] theorem lanes16_val (bs : List Byte) : (lanes16 bs).val = (bs ++ List.replicate 16 0).take 16 := rfl

/-- The bytes of a response that carries at most 16 bytes. -/
theorem okResponse_bytes {bs : List Byte} (h : bs.length ≤ 16) : (okResponse bs).bytes = bs := by
  have hl : (BitVec.ofNat 5 bs.length).toNat = bs.length := by simp; omega
  simp only [okResponse, Response.bytes, hl, lanes16_val, List.take_take, Nat.min_eq_left h,
    List.take_append_of_le_length (Nat.le_refl _), List.take_length]

@[simp] theorem okResponse_rsp (bs : List Byte) : (okResponse bs).rsp = .ok := rfl

/-! The checks by opcode number, as Safety.lean reads the tables of R25 and R74 a second time. -/

/-- The legal lengths, read twice (R74). -/
theorem lenLegal_iff (rate : Rate) (i : Instr) :
    lenLegal rate i = true ↔ legalLength rate.bytes i.opcode.toNat i.len.toNat := by
  cases i <;> simp [lenLegal, legalLength, Instr.opcode, Instr.len]

/-- The legal lengths of R74 depend on the opcode and the length only. -/
theorem lenLegal_congr (rate : Rate) {i j : Instr} (ho : i.opcode = j.opcode) (hl : i.len = j.len) :
    lenLegal rate i = lenLegal rate j := by
  rw [Bool.eq_iff_iff, lenLegal_iff, lenLegal_iff, ho, hl]

/-- The acceptance table, read twice (R25). -/
theorem acceptedNow_iff (a : Arch) (i : Instr) (rate : Rate) (h : lenLegal rate i = true) :
    acceptedNow a i = true ↔ acceptance a i.opcode.toNat i.len.toNat := by
  cases i with
  | findec len din =>
    simp only [lenLegal, decide_eq_true_eq] at h
    have e : len = 16 ↔ len.toNat = 16 := by rw [← BitVec.toNat_inj]; rfl
    by_cases h16 : len = 16
    · simp [acceptedNow, acceptance, Instr.opcode, Instr.len, h16, and_assoc]
    · have : len.toNat < 16 := by have := mt e.mpr h16; omega
      have h' : len.toNat ≠ 16 := by omega
      simp only [acceptedNow, if_neg h16]
      simp [acceptance, Instr.opcode, Instr.len, this, h']
  | _ => simp [acceptedNow, acceptance, Instr.opcode, Instr.len, and_assoc]

/-- Check 6 of R193 by opcode number. -/
theorem fitsBuffer_iff (cfg : Cfg) (a : Arch) (i : Instr) : fitsBuffer cfg a i = true ↔
    (i.opcode.toNat = 7 ∨ i.opcode.toNat = 8 → a.plen.toNat + i.len.toNat ≤ cfg.pbufBytes.val) := by
  cases i <;> simp [fitsBuffer, Instr.opcode, Instr.len]

/-- The two headers that are served while `ERR = 1` (R195). -/
theorem servedInError_iff (i : Instr) : servedInError i = true ↔
    (encode i).header = 0x0000 ∨ (encode i).header = 0x000C := by
  have key : ∀ (op : BitVec 4) (len : BitVec 5) (dir : BitVec 1),
      headerOf op len dir = 0x0000 ∨ headerOf op len dir = 0x000C ↔ (op = 0 ∨ op = 12) ∧ len = 0 ∧ dir = 0 := by
    decide
  rw [encode, key]
  cases i <;> simp [servedInError, Instr.opcode, Instr.len, Instr.dirBit]

/-- A command faults only while `ERR = 0` (R195). -/
theorem verdict_fault_err {cfg : Cfg} {a : Arch} {i : Instr} {c : FaultCode} (h : verdict cfg a i = .fault c) :
    a.err = false := by
  cases he : a.err with
  | false => rfl
  | true =>
    cases hs : servedInError i with
    | false => rw [verdict_refuse he hs] at h; cases h
    | true =>
      have : verdict cfg a i = .execute := by
        rw [verdict_execute]
        refine ⟨.inr hs, ?_⟩
        cases i <;> simp_all [servedInError, lenLegal, acceptedNow, fitsBuffer]
      rw [this] at h; cases h

/-- `STAT` and `SCRUB` pass every check in every state (R25, R195). -/
theorem verdict_always {cfg : Cfg} {a : Arch} {i : Instr} (h : i = .stat 0 ∨ i = .scrub 0) :
    verdict cfg a i = .execute := by
  rw [verdict_execute]; rcases h with rfl | rfl <;> exact ⟨.inr rfl, rfl, rfl, rfl⟩

/-- Check 4 of R193 as an instance makes it. -/
theorem execIn_badLen {cfg : Cfg} {i : Instr} {s : State} (h0 : s.err = false) (h : lenLegal cfg.rate i = false) :
    execIn cfg i s = .next (s.faulted .badLen) := by
  rw [execIn_of_fault (verdict_badLen (.inl h0) h)]; rfl

/-- Check 4 of R193 as the machine makes it. -/
theorem exec_badLen {i : Instr} {s : State} (h0 : s.err = false) (h : lenLegal Config.cfg.rate i = false) :
    exec i s = .next (s.faulted .badLen) := by
  rw [exec_eq, execIn_of_fault (verdict_badLen (.inl h0) h)]; rfl

/-- Check 5 of R193. -/
theorem execIn_badPhase {cfg : Cfg} {i : Instr} {s : State} (h0 : s.err = false) (h : lenLegal cfg.rate i = true)
    (ha : acceptedNow s.toArch i = false) :
    execIn cfg i s = .next (s.faulted .badPhase) := by
  rw [execIn_of_fault (verdict_badPhase h0 h ha)]; rfl

/-- Check 6 of R193. -/
theorem execIn_overflow {cfg : Cfg} {i : Instr} {s : State} (h0 : s.err = false) (h : lenLegal cfg.rate i = true)
    (ha : acceptedNow s.toArch i = true) (hf : fitsBuffer cfg s.toArch i = false) :
    execIn cfg i s = .next (s.faulted .pbufOverflow) := by
  rw [execIn_of_fault (verdict_overflow h0 h ha hf)]; rfl

/-- Step 7 of R193. -/
theorem execIn_ok {cfg : Cfg} {i : Instr} {s : State} {e : Arch × Response} (h0 : s.err = false) (h : lenLegal cfg.rate i = true)
    (ha : acceptedNow s.toArch i = true) (hf : fitsBuffer cfg s.toArch i = true) (he : effectOf cfg i s.toArch = some e) :
    execIn cfg i s = .next (s.complete e) :=
  execIn_of_execute (verdict_execute.mpr ⟨.inl h0, h, ha, hf⟩) he

/-- `STAT` in any state. -/
theorem exec_stat_zero (s : State) : exec (.stat 0) s = .next (s.complete (statEffect Config.cfg s.toArch)) := by
  rw [exec_eq, execIn_of_execute (verdict_always (.inl rfl)) rfl]

/-- `SCRUB` in any state. -/
theorem exec_scrub_zero (s : State) : exec (.scrub 0) s = .next (s.complete (scrubEffect s.toArch)) := by
  rw [exec_eq, execIn_of_execute (verdict_always (.inr rfl)) rfl]

/-! Operands and effects. -/

/-- The rate of the machine. -/
@[simp] theorem rate_cfg : Config.cfg.rate = Config.rate := rfl

/-- A block is at most 16 bytes. -/
theorem Rate.bytes_le (r : Rate) : r.bytes ≤ 16 := by cases r <;> decide

/-- An operand has `LEN` bytes. -/
theorem operand_length {len : BitVec 5} {din : Lanes 20} (h : len.toNat ≤ 20) : (operand din len).length = len.toNat := by
  simp [operand, dinSlice, din.2, h]

/-- A recovered block has the length of its ciphertext. -/
theorem recover_length {s : Sponge} {c : List Byte} (h : c.length ≤ 16) : (recover s c).length = c.length := by
  rw [recover, List.length_zipWith, regionBytes_length _ _ h, min_self]

/-- A response without a result is well-formed (R73). -/
theorem emptyResponse_wf (r : Rsp) : (emptyResponse r).WellFormed := by
  refine ⟨by simp [emptyResponse], ?_, fun _ => rfl⟩
  intro k _ hk
  have : ∀ k < 16, (List.replicate 16 (0 : Byte))[k]? = some 0 := by decide
  exact this k hk

/-- A response that carries at most 16 bytes is well-formed (R73). -/
theorem okResponse_wf {bs : List Byte} (h : bs.length ≤ 16) : (okResponse bs).WellFormed := by
  have hl : (BitVec.ofNat 5 bs.length).toNat = bs.length := by simp; omega
  refine ⟨by simp only [okResponse, hl]; exact h, ?_, fun x => absurd rfl x⟩
  intro k h1 h2
  simp only [okResponse, hl] at h1
  simp only [okResponse, lanes16_val, List.getElem?_take, h2, if_true]
  rw [List.getElem?_append_right h1, List.getElem?_replicate, if_pos (by omega)]

/-- What an executed command answers (R190). -/
theorem effectOf_rsp {cfg : Cfg} {i : Instr} {a : Arch} {e : Arch × Response} (h : effectOf cfg i a = some e) :
    e.2.rsp = .ok ∨ (i.opcode = 10 ∧ e.2.rsp = .authFail) := by
  cases i with
  | findec len din =>
    cases h
    simp only [findecEffect, findecVerify, findecUndersized]
    split
    · split
      · exact .inl rfl
      · exact .inr ⟨rfl, rfl⟩
    · exact .inr ⟨rfl, rfl⟩
  | rdpt len =>
    simp only [effectOf, rdptEffect] at h
    split at h
    · cases h; exact .inl rfl
    · cases h
  | _ => cases h; exact .inl rfl

/-- An executed command answers a well-formed response (R73). -/
theorem effectOf_wf {cfg : Cfg} {i : Instr} {a : Arch} {e : Arch × Response}
    (hl : lenLegal cfg.rate i = true) (h : effectOf cfg i a = some e) : e.2.WellFormed := by
  have ok0 : (okResponse []).WellFormed := okResponse_wf (by simp)
  have af : authFailResponse.WellFormed := emptyResponse_wf .authFail
  have hr : cfg.rate.bytes ≤ 16 := by cases cfg.rate <;> decide
  have op : ∀ (len : BitVec 5) (din : Lanes 20), (operand din len).length ≤ len.toNat := fun len din => by
    simp [operand, dinSlice]
  have rb : ∀ n s, n ≤ 16 → (regionBytes n s).length ≤ 16 := fun n s hn => by
    rw [regionBytes_length s n hn]; exact hn
  cases i with
  | stat len => cases h; exact okResponse_wf (by simp [statBytes])
  | encblk len din =>
    cases h; simp [lenLegal] at hl
    exact okResponse_wf (rb _ _ (by have := op len din; omega))
  | enclast len din =>
    cases h; simp [lenLegal] at hl
    exact okResponse_wf (rb _ _ (by have := op len din; omega))
  | finenc len => cases h; exact okResponse_wf (by simp)
  | findec len din =>
    cases h
    simp only [findecEffect, findecVerify, findecUndersized]
    split
    · split
      · exact ok0
      · exact af
    · exact af
  | rdpt len =>
    simp only [lenLegal, decide_eq_true_eq] at hl
    simp only [effectOf, rdptEffect] at h
    split at h
    · rename_i bs hb
      cases h
      apply okResponse_wf
      unfold memRead at hb
      split at hb
      · cases hb; simp [readCount]; omega
      · cases hb
    · cases h
  | _ => cases h; exact ok0

/-- An effect reads the operand lanes only (R72). -/
theorem effectOf_operand (cfg : Cfg) (a : Arch) {i i' : Instr} (ho : i.opcode = i'.opcode) (hl : i.len = i'.len)
    (hd : i.dirBit = i'.dirBit) (hleg : lenLegal cfg.rate i = true)
    (hp : i.payload.val.take i.len.toNat = i'.payload.val.take i.len.toNat) :
    effectOf cfg i a = effectOf cfg i' a := by
  rcases same_row ho hl hd with ⟨len, -, rfl⟩ | ⟨len, din, din', rfl, rfl⟩ | ⟨dir, len, din, din', rfl, rfl⟩ |
    ⟨len, din, din', rfl, rfl⟩ | ⟨len, din, din', rfl, rfl⟩ | ⟨len, din, din', rfl, rfl⟩ |
    ⟨len, din, din', rfl, rfl⟩ | ⟨len, din, din', rfl, rfl⟩ | ⟨len, din, din', rfl, rfl⟩ |
    ⟨len, din, din', rfl, rfl⟩
  · rfl
  · have : len = 20 := BitVec.eq_of_toNat_eq (by simpa [lenLegal] using hleg)
    subst this
    have h : dinSlice din 0 20 = dinSlice din' 0 20 := hp
    simp only [effectOf, ldkeyEffect, h]
  · have : len = 16 := BitVec.eq_of_toNat_eq (by simpa [lenLegal] using hleg)
    subst this
    have h : dinSlice din 0 16 = dinSlice din' 0 16 := hp
    simp only [effectOf, initEffect, h]
  all_goals have h : operand din len = operand din' len := hp
  · simp only [effectOf, adblkEffect, h]
  · simp only [effectOf, adlastEffect, h]
  · simp only [effectOf, encblkEffect, h]
  · simp only [effectOf, enclastEffect, h]
  · simp only [effectOf, decblkEffect, h]
  · simp only [effectOf, declastEffect, h]
  · simp only [effectOf, findecEffect]
    split
    · rename_i h16
      subst h16
      have h : dinSlice din 0 16 = dinSlice din' 0 16 := hp
      simp only [findecVerify, h]
    · rfl

/-! What the checks read. -/

/-- Public views are the same when their fields are. -/
theorem publicView_iff (a b : Arch) : a.publicView = b.publicView ↔
    a.phase = b.phase ∧ a.kvalid = b.kvalid ∧ a.dir = b.dir ∧ a.ddone = b.ddone ∧ a.authOk = b.authOk ∧
    a.authFail = b.authFail ∧ a.authCause = b.authCause ∧ a.err = b.err ∧ a.errCode = b.errCode ∧
    a.plen = b.plen ∧ a.prd = b.prd := by
  simp [Arch.publicView]

/-- The checks read the public part of the state only (R225). -/
theorem verdict_public {cfg : Cfg} {a b : Arch} {i i' : Instr} (h : a.publicView = b.publicView)
    (ho : i.opcode = i'.opcode) (hl : i.len = i'.len) (hd : i.dirBit = i'.dirBit) :
    verdict cfg a i = verdict cfg b i' := by
  obtain ⟨h1, h2, h3, h4, h5, -, -, h8, -, h10, -⟩ := (publicView_iff a b).mp h
  have hsrv : servedInError i = servedInError i' := by
    rw [Bool.eq_iff_iff, servedInError_iff, servedInError_iff, encode, encode, ho, hl, hd]
  have hacc : acceptedNow a i = acceptedNow b i' := by
    rcases same_row ho hl hd with ⟨len, -, rfl⟩ | ⟨len, din, din', rfl, rfl⟩ | ⟨dir, len, din, din', rfl, rfl⟩ |
      ⟨len, din, din', rfl, rfl⟩ | ⟨len, din, din', rfl, rfl⟩ | ⟨len, din, din', rfl, rfl⟩ |
      ⟨len, din, din', rfl, rfl⟩ | ⟨len, din, din', rfl, rfl⟩ | ⟨len, din, din', rfl, rfl⟩ |
      ⟨len, din, din', rfl, rfl⟩
    · cases i' <;> simp only [acceptedNow, h1, h2, h3, h4, h5]
    all_goals simp only [acceptedNow, h1, h2, h3, h4]
  have hfit : fitsBuffer cfg a i = fitsBuffer cfg b i' := by
    rw [Bool.eq_iff_iff, fitsBuffer_iff, fitsBuffer_iff, ho, hl, h10]
  rw [verdict, verdict, h8, hsrv, lenLegal_congr cfg.rate ho hl, hacc, hfit]

/-- The checks do not read the hold buffer. -/
theorem verdict_pbuf (cfg : Cfg) (a : Arch) (m : Memory) (i : Instr) :
    verdict cfg { a with pbuf := m } i = verdict cfg a i := by
  cases i <;> rfl

/-! The step. -/

/-- Everything a step that answers a next state can have done to the architectural state. -/
theorem step_arch {s t : State} (h : step s = .next t) :
    t.toArch = s.toArch ∨ (t.toArch = Arch.reset ∧ ∃ rest, s.inbox = .reset :: rest) ∨
      (s.err = false ∧ ∃ c, t.toArch = faultEntry c s.toArch) ∨
      ∃ c rest i e, s.inbox = .command c :: rest ∧ decode c = .ok i ∧
        verdict Config.cfg s.toArch i = .execute ∧ effectOf Config.cfg i s.toArch = some e ∧ t.toArch = e.1 := by
  rw [step_eq] at h
  rcases stepIn_next h with ⟨-, rfl⟩ | ⟨rest, h1, rfl⟩ | ⟨c, rest, e, -, -, rfl⟩ | ⟨c, rest, i, h1, hd, hx⟩
  · exact .inl rfl
  · exact .inr (.inl ⟨rfl, rest, h1⟩)
  · unfold State.rejectHeader
    split
    · exact .inl rfl
    · rename_i he
      exact .inr (.inr (.inl ⟨by simpa using he, e, rfl⟩))
  · rcases execIn_next hx with ⟨-, rfl⟩ | ⟨f, hv, rfl⟩ | ⟨hv, e, he, rfl⟩
    · exact .inl rfl
    · refine .inr (.inr (.inl ⟨?_, f, rfl⟩))
      exact verdict_fault_err hv
    · exact .inr (.inr (.inr ⟨c, rest, i, e, h1, hd, hv, he, rfl⟩))

/-- Everything a step of instance `n` of several can do (R207). -/
theorem stepInstance_cases {n : Nat} {cs zs : List (Cfg × State)} (h : stepInstance n cs = .next zs) :
    (cs[n]? = none ∧ zs = cs) ∨
      ∃ cfg s t, cs[n]? = some (cfg, s) ∧ stepIn cfg s = .next t ∧ zs = cs.set n (cfg, t) := by
  unfold stepInstance at h
  split at h
  · rename_i hn; cases h; exact .inl ⟨hn, rfl⟩
  · rename_i cfg s hn
    split at h
    · rename_i t ht; cases h; exact .inr ⟨cfg, s, t, hn, ht, rfl⟩
    · cases h
    · cases h

end Sys2Proof.Machine
end

