-- ==== Sys2Proof/Laws/Invariant.lean ====
section
/-! SUPPORT. The invariant of Safety.lean, one lemma for each way the architectural state changes. -/

namespace Sys2Proof.Machine

/-- The reset state meets the invariant (R36, R37). -/
theorem reset_inv (cfg : Cfg) : Arch.reset.Inv cfg := by
  constructor
  · constructor <;> simp
  all_goals simp

/-- So does the state after a fault (R192). -/
theorem faultEntry_inv (cfg : Cfg) (c : FaultCode) (a : Arch) : (faultEntry c a).Inv cfg := by
  constructor
  · constructor <;> simp [faultEntry_eq]
  all_goals simp

/-- So does the state after an `AuthenticationFailure` (R191). -/
theorem authFailureEntry_inv {cfg : Cfg} {a : Arch} (c : AuthCause) (h : a.Inv cfg) (he : a.err = false)
    (hf : a.phase ≠ .finalized) : (authFailureEntry c a).Inv cfg := by
  have hok : a.authOk = false := by
    rw [Bool.eq_false_iff]; exact fun x => hf (h.authOk x).1
  constructor
  · constructor <;> simp [he, hok]
  all_goals simp [he, hok, h.noCode he]

/-- Holding recovered plaintext keeps what is held below `PLEN`. -/
theorem hold_held {a : Arch} {p : List Byte} (hp : a.plen.toNat + p.length < 2 ^ 32)
    (h : ∀ k, a.plen.toNat ≤ k → a.pbuf.read k = 0) :
    (holdPlaintext p a).plen.toNat = a.plen.toNat + p.length ∧
    ∀ k, (holdPlaintext p a).plen.toNat ≤ k → (holdPlaintext p a).pbuf.read k = 0 := by
  have e : (holdPlaintext p a).plen.toNat = a.plen.toNat + p.length := by
    rw [holdPlaintext_plen, BitVec.toNat_add, BitVec.toNat_ofNat]; omega
  refine ⟨e, fun k hk => ?_⟩
  rw [holdPlaintext_pbuf, memWrite_read_outside (by omega)]
  exact h k (by omega)

/-- Within an operation a command may write `S`, move the phase on, and set `DDONE`. -/
theorem working_inv {cfg : Cfg} {a : Arch} {S : Sponge} {p : Phase} {d : Bool} (h : a.Inv cfg)
    (hu : a.phase ≠ .uninitialized) (hf : a.phase ≠ .finalized) (hp : p ≠ .uninitialized ∧ p ≠ .finalized)
    (hd : d = true → p = .processing) : Arch.Inv cfg { a with S := S, phase := p, ddone := d } := by
  have hk := h.started hu hf
  have hok : a.authOk = false := by rw [Bool.eq_false_iff]; exact fun y => hf (h.authOk y).1
  have hfl : a.authFail = false := by rw [Bool.eq_false_iff]; exact fun y => hf (h.authFail y).1
  have he : a.err = false := by
    rw [Bool.eq_false_iff]; intro y
    obtain ⟨c, -, hc⟩ := h.err y
    rw [hc] at hf; exact hf rfl
  have hcnt := h.counts
  constructor
  · constructor <;> simp [hk, hok, hfl, he, hp, hcnt]
    · exact hd
    · exact h.encrypting
  · exact h.pbufWf
  · exact h.pbufHeld
  all_goals simp [hk, hok, hfl, he, h.noCode he, h.noCause hfl, h.noneRead hok]

/-- Within a decryption a command may also hold plaintext. -/
theorem hold_inv {cfg : Cfg} {a : Arch} {p : List Byte} (h : a.Inv cfg) (hu : a.phase ≠ .uninitialized)
    (hf : a.phase ≠ .finalized) (hd : a.dir = .dec) (hp : a.plen.toNat + p.length ≤ cfg.pbufBytes.val) :
    (holdPlaintext p a).Inv cfg := by
  have hk := h.started hu hf
  have hok : a.authOk = false := by rw [Bool.eq_false_iff]; exact fun y => hf (h.authOk y).1
  have hfl : a.authFail = false := by rw [Bool.eq_false_iff]; exact fun y => hf (h.authFail y).1
  have he : a.err = false := by
    rw [Bool.eq_false_iff]; intro y
    obtain ⟨c, -, hc⟩ := h.err y
    rw [hc] at hf; exact hf rfl
  have hlt := cfg.pbufBytes.isLt
  obtain ⟨hn, hheld⟩ := hold_held (p := p) (by omega) h.pbufHeld
  have hcnt := h.counts
  have hdd := h.ddone
  constructor
  · constructor
    case counts => rw [hn]; simp; omega
    all_goals simp [hu, hf, hok, hfl, he, hd]
    simpa [hf] using hdd
  · exact memWrite_wf h.pbufWf _ _
  · exact hheld
  all_goals simp [hk, hok, hfl, he, h.noCode he, h.noCause hfl, h.noneRead hok]

/-- Every executed command keeps the invariant. -/
theorem effectOf_inv {cfg : Cfg} {i : Instr} {a : Arch} {e : Arch × Response} (h : a.Inv cfg)
    (hv : verdict cfg a i = .execute) (he : effectOf cfg i a = some e) : e.1.Inv cfg := by
  obtain ⟨hs, hl, ha, hf⟩ := verdict_execute.mp hv
  have err0 : servedInError i = false → a.err = false := fun x => hs.resolve_right (by simp [x])
  have nerr : a.phase ≠ .finalized → a.err = false := fun x => by
    rw [Bool.eq_false_iff]; intro y
    obtain ⟨c, -, hc⟩ := h.err y
    rw [hc] at x; exact x rfl
  have nok : a.phase ≠ .finalized → a.authOk = false := fun x => by
    rw [Bool.eq_false_iff]; exact fun y => x (h.authOk y).1
  have nfl : a.phase ≠ .finalized → a.authFail = false := fun x => by
    rw [Bool.eq_false_iff]; exact fun y => x (h.authFail y).1
  have hcnt := h.counts
  have hwf := h.pbufWf
  have hheld := h.pbufHeld
  have hr := Rate.bytes_le cfg.rate
  cases i with
  | stat len => cases he; exact h
  | scrub len => cases he; exact reset_inv cfg
  | ldkey len din =>
    cases he
    simp [acceptedNow] at ha
    obtain ⟨hp, hk⟩ := ha
    have hu := h.uninitialized hp
    have hc := h.noCode hu.2.2.2.2.2.1
    have hcs := h.noCause hu.2.2.2.2.1
    constructor
    · constructor <;> simp [ldkeyEffect, hp, hu]
    all_goals simp [ldkeyEffect, hp, hu, hc, hcs]
  | init dir len din =>
    cases he
    simp [acceptedNow] at ha
    obtain ⟨hp, hk⟩ := ha
    have hu := h.uninitialized hp
    have hc := h.noCode hu.2.2.2.2.2.1
    have hcs := h.noCause hu.2.2.2.2.1
    constructor
    · constructor <;> simp [initEffect, hk, hu]
    all_goals simp [initEffect, hk, hu, hc, hcs]
  | adblk len din =>
    cases he
    simp [acceptedNow] at ha
    have hnf : a.phase ≠ .finalized := by rcases ha with ha | ha <;> simp [ha]
    have hnu : a.phase ≠ .uninitialized := by rcases ha with ha | ha <;> simp [ha]
    refine working_inv h hnu hnf (by simp) fun x => ?_
    rcases h.ddone x with y | y <;> rcases ha with ha | ha <;> simp [ha] at y
  | adlast len din =>
    cases he
    simp [acceptedNow] at ha
    have hnf : a.phase ≠ .finalized := by rcases ha with ha | ha <;> simp [ha]
    have hnu : a.phase ≠ .uninitialized := by rcases ha with ha | ha <;> simp [ha]
    exact working_inv h hnu hnf (by simp) fun _ => rfl
  | encblk len din =>
    cases he
    simp [acceptedNow] at ha
    exact working_inv h (by simp [ha]) (by simp [ha]) (by simp [ha]) fun _ => ha.1.1
  | enclast len din =>
    cases he
    simp [acceptedNow] at ha
    exact working_inv h (by simp [ha]) (by simp [ha]) (by simp [ha]) fun _ => ha.1.1
  | decblk len din =>
    cases he
    simp [acceptedNow] at ha
    simp [lenLegal] at hl
    simp [fitsBuffer] at hf
    have hol : (operand din len).length = len.toNat := operand_length (by omega)
    have hh := hold_inv (p := recover a.S (operand din len)) h (by simp [ha]) (by simp [ha]) ha.2
      (by rw [recover_length (by omega)]; omega)
    exact working_inv hh (by simp [ha]) (by simp [ha]) (by simp [ha]) fun _ => ha.1.1
  | declast len din =>
    cases he
    simp [acceptedNow] at ha
    simp [lenLegal] at hl
    simp [fitsBuffer] at hf
    have hol : (operand din len).length = len.toNat := operand_length (by omega)
    have hh := hold_inv (p := recover a.S (operand din len)) h (by simp [ha]) (by simp [ha]) ha.2
      (by rw [recover_length (by omega)]; omega)
    exact working_inv hh (by simp [ha]) (by simp [ha]) (by simp [ha]) fun _ => ha.1.1
  | finenc len =>
    cases he
    simp [acceptedNow] at ha
    have hnf : a.phase ≠ .finalized := by simp [ha]
    have henc := h.encrypting ha.2
    constructor
    · constructor <;> simp [finencEffect, ha, nok hnf, nfl hnf, nerr hnf, henc]
      have := h.noneRead (nok hnf); rw [this]; simp
    all_goals simp [finencEffect, ha, nok hnf, nfl hnf, nerr hnf, hwf, h.noCode (nerr hnf), h.noCause (nfl hnf), h.noneRead (nok hnf)]
    · exact hheld
  | findec len din =>
    have he0 := err0 rfl
    simp only [effectOf, findecEffect, findecVerify, findecUndersized, Option.some_inj] at he
    by_cases h16 : len = 16
    · simp [acceptedNow, h16] at ha
      have hnf : a.phase ≠ .finalized := by simp [ha]
      rw [if_pos h16] at he
      split at he
      · cases he
        constructor
        · constructor <;> simp [ha, nfl hnf, he0, hcnt]
        all_goals simp [nfl hnf, he0, hwf, h.noCode he0, h.noCause (nfl hnf)]
        · exact hheld
      · cases he
        exact authFailureEntry_inv _ h he0 hnf
    · rw [if_neg h16] at he
      cases he
      simp only [acceptedNow, if_neg h16] at ha
      refine authFailureEntry_inv _ h he0 ?_
      intro x; simp [x] at ha
  | rdpt len =>
    simp [acceptedNow] at ha
    rw [effectOf, rdptEffect_some hcnt.2, Option.some_inj] at he
    cases he
    have he0 := (h.authOk ha.2).2.2
    have hdir := (h.authOk ha.2).2.1
    have hfl : a.authFail = false := by
      rw [Bool.eq_false_iff]; exact fun x => h.oneOutcome ⟨ha.2, x⟩
    have hn : (a.prd + BitVec.ofNat 32 (readCount len a)).toNat ≤ a.plen.toNat := by
      rw [BitVec.toNat_add, BitVec.toNat_ofNat]
      have : readCount len a ≤ a.plen.toNat - a.prd.toNat := Nat.min_le_right _ _
      have := cfg.pbufBytes.isLt
      omega
    have hfin := h.finalized ha.1
    constructor
    · constructor
      case counts => exact ⟨hn, hcnt.2⟩
      all_goals simp [ha, he0, hdir, hfl, hfin]
    · exact hwf
    · exact hheld
    all_goals simp [ha, he0, hfl, hfin, h.noCode he0, h.noCause hfl]

end Sys2Proof.Machine
end

