-- ==== Sys2Proof/Laws/PerInstr.lean ====
section
/-! SUPPORT. One lemma per command: the header the encoder writes holds the command's opcode, length and
direction in the fields of R71, and its reserved bits are clear. -/

namespace Sys2Proof.Laws.HeaderFields

/-- The fields of the encoded header are those of the command (R71, R75). -/
def Statement (i : Instr) : Prop :=
  opField (encode i).header = i.opcode ∧ lenField (encode i).header = i.len ∧
    dirField (encode i).header = i.dirBit ∧ rsvField (encode i).header = 0

theorem stat (len : BitVec 5) : Statement (.stat len) := by simp [Statement, encode]
theorem ldkey (len : BitVec 5) (din : Lanes 20) : Statement (.ldkey len din) := by simp [Statement, encode]
theorem init (dir : Dir) (len : BitVec 5) (din : Lanes 20) : Statement (.init dir len din) := by
  simp [Statement, encode]
theorem adblk (len : BitVec 5) (din : Lanes 20) : Statement (.adblk len din) := by simp [Statement, encode]
theorem adlast (len : BitVec 5) (din : Lanes 20) : Statement (.adlast len din) := by simp [Statement, encode]
theorem encblk (len : BitVec 5) (din : Lanes 20) : Statement (.encblk len din) := by simp [Statement, encode]
theorem enclast (len : BitVec 5) (din : Lanes 20) : Statement (.enclast len din) := by simp [Statement, encode]
theorem decblk (len : BitVec 5) (din : Lanes 20) : Statement (.decblk len din) := by simp [Statement, encode]
theorem declast (len : BitVec 5) (din : Lanes 20) : Statement (.declast len din) := by simp [Statement, encode]
theorem finenc (len : BitVec 5) : Statement (.finenc len) := by simp [Statement, encode]
theorem findec (len : BitVec 5) (din : Lanes 20) : Statement (.findec len din) := by simp [Statement, encode]
theorem rdpt (len : BitVec 5) : Statement (.rdpt len) := by simp [Statement, encode]
theorem scrub (len : BitVec 5) : Statement (.scrub len) := by simp [Statement, encode]

end Sys2Proof.Laws.HeaderFields
end

