-- ==== Sys2Proof/Laws/Scheme.lean ====
section
/-! SUPPORT. Strings as blocks (R172), and runs of commands that are all accepted: what a sequence of
spec/47_facade_sequences.md leaves and answers, part by part. -/

namespace Sys2Proof.Machine

/-- A block has at least one byte. -/
theorem Rate.bytes_pos (r : Rate) : 0 < r.bytes := by cases r <;> decide

/-- The length of the last block (R172). -/
theorem lastBlock_length (r : Rate) (x : List Byte) : (lastBlock r x).length = x.length % r.bytes := by
  rw [lastBlock, List.length_drop]
  have := Nat.div_add_mod x.length r.bytes
  rw [Nat.mul_comm] at this; omega

/-- The last block is shorter than a full block (R172). -/
theorem lastBlock_lt (r : Rate) (x : List Byte) : (lastBlock r x).length < r.bytes := by
  rw [lastBlock_length]; exact Nat.mod_lt _ (Rate.bytes_pos r)

/-- The number of full blocks (R172). -/
theorem fullBlocks_length (r : Rate) (x : List Byte) : (fullBlocks r x).length = x.length / r.bytes := by
  simp [fullBlocks]

/-- A full block has `RATE` bytes (R172). -/
theorem fullBlocks_mem {r : Rate} {x b : List Byte} (h : b ∈ fullBlocks r x) : b.length = r.bytes := by
  simp only [fullBlocks, List.mem_map, List.mem_range] at h
  obtain ⟨j, hj, rfl⟩ := h
  rw [List.length_take, List.length_drop]
  have h1 : (j + 1) * r.bytes ≤ x.length / r.bytes * r.bytes := Nat.mul_le_mul_right _ hj
  have h2 := Nat.div_mul_le_self x.length r.bytes
  rw [Nat.add_mul, Nat.one_mul] at h1
  omega

/-- Cutting a string that is put together from blocks gives the blocks back (R172). -/
theorem split_join {r : Rate} {bs : List (List Byte)} {l : List Byte} (hb : ∀ b ∈ bs, b.length = r.bytes)
    (hl : l.length < r.bytes) : fullBlocks r (bs.flatten ++ l) = bs ∧ lastBlock r (bs.flatten ++ l) = l := by
  have hf : bs.flatten.length = bs.length * r.bytes := by
    rw [List.length_flatten, List.map_congr_left hb]; simp
  have hd : (bs.flatten ++ l).length / r.bytes = bs.length := by
    rw [List.length_append, hf, Nat.mul_comm, Nat.mul_add_div (Rate.bytes_pos r), Nat.div_eq_of_lt hl, Nat.add_zero]
  constructor
  · rw [fullBlocks, hd]
    clear hd
    induction bs with
    | nil => rfl
    | cons b bs ih =>
      have hbl : b.length = r.bytes := hb b (by simp)
      have hb' : ∀ b ∈ bs, b.length = r.bytes := fun c hc => hb c (by simp [hc])
      have hf' : bs.flatten.length = bs.length * r.bytes := by
        rw [List.length_flatten, List.map_congr_left hb']; simp
      rw [List.length_cons, List.range_succ_eq_map, List.map_cons, List.map_map]
      congr 1
      · simp [← hbl]
      · refine (List.map_congr_left fun j _ => ?_).trans (ih hb' hf')
        have : j.succ * r.bytes = b.length + j * r.bytes := by rw [Nat.succ_mul, hbl, Nat.add_comm]
        simp only [Function.comp, this, List.flatten_cons, List.append_assoc, ← List.drop_drop, List.drop_left]
  · rw [lastBlock, hd, ← hf, List.drop_left]

/-- A string is its full blocks and its last block (R172). -/
theorem split_flatten (r : Rate) (x : List Byte) : (fullBlocks r x).flatten ++ lastBlock r x = x := by
  have key : ∀ n, n * r.bytes ≤ x.length →
      ((List.range n).map (fun j => (x.drop (j * r.bytes)).take r.bytes)).flatten = x.take (n * r.bytes) := by
    intro n
    induction n with
    | zero => intro _; simp
    | succ n ih =>
      intro h
      rw [List.range_succ, List.map_append, List.flatten_append, ih (by rw [Nat.add_mul] at h; omega),
        Nat.add_mul, Nat.one_mul, List.take_add]
      simp
  rw [fullBlocks, lastBlock, key _ (Nat.div_mul_le_self _ _), List.take_append_drop]

/-- Collecting from two runs of responses. -/
theorem collect_append (rs qs : List Response) : collect (rs ++ qs) = collect rs ++ collect qs := by simp [collect]

/-- Two blocks held one after the other are one block held. -/
theorem holdPlaintext_append (p q : List Byte) (a : Arch) (h : a.plen.toNat + p.length + q.length < 2 ^ 32) :
    holdPlaintext q (holdPlaintext p a) = holdPlaintext (p ++ q) a := by
  have e : (holdPlaintext p a).plen.toNat = a.plen.toNat + p.length := by
    rw [holdPlaintext_plen, BitVec.toNat_add, BitVec.toNat_ofNat]; omega
  have e2 : a.plen + BitVec.ofNat 32 p.length + BitVec.ofNat 32 q.length = a.plen + BitVec.ofNat 32 (p ++ q).length := by
    apply BitVec.eq_of_toNat_eq
    simp; omega
  rw [show holdPlaintext q (holdPlaintext p a) = { holdPlaintext p a with pbuf := memWrite (holdPlaintext p a).pbuf (holdPlaintext p a).plen.toNat q, plen := (holdPlaintext p a).plen + BitVec.ofNat 32 q.length } from rfl, e]
  rw [show holdPlaintext (p ++ q) a = { a with pbuf := memWrite a.pbuf a.plen.toNat (p ++ q), plen := a.plen + BitVec.ofNat 32 (p ++ q).length } from rfl, memWrite_append, ← e2]
  rfl

/-- The lanes of an operand begin with its bytes. -/
theorem lanes20_take (bs : List Byte) (h : bs.length ≤ 20) : (lanes20 bs).val.take bs.length = bs := by
  simp [lanes20, List.take_take, h]

/-- The `LEN` of an operand. -/
theorem lenOf_toNat (bs : List Byte) (h : bs.length ≤ 20) : (lenOf bs).toNat = bs.length := by simp [lenOf]; omega

/-- The operand that the lanes of a command carry. -/
theorem operand_lanes20 (bs : List Byte) (h : bs.length ≤ 20) : operand (lanes20 bs) (lenOf bs) = bs := by
  have : (lenOf bs).toNat = bs.length := by simp [lenOf]; omega
  simp only [operand, dinSlice, List.drop_zero, this, lanes20_take bs h]

/-! Runs of accepted commands. `hdec` is the round trip of the encoding. -/

/-- The commands `is`, presented to an instance in state `a`, are all accepted and answered by `rs`, and leave it in
`a'`. -/
def Runs (cfg : Cfg) (is : List Instr) (a a' : Arch) (rs : List Response) : Prop :=
  rs.length = is.length ∧ ∀ (n : Nat) (evs : List HostEvent) (out : List Response),
    runIn cfg (is.length + n) { toArch := a, inbox := hostEvents is ++ evs, outbox := out } =
      runIn cfg n { toArch := a', inbox := evs, outbox := out ++ rs }

/-- No command. -/
theorem Runs.nil (cfg : Cfg) (a : Arch) : Runs cfg [] a a [] := by
  refine ⟨rfl, fun n evs out => ?_⟩
  simp [hostEvents]

/-- One run after another. -/
theorem Runs.append {cfg : Cfg} {is js : List Instr} {a b c : Arch} {rs qs : List Response}
    (h : Runs cfg is a b rs) (g : Runs cfg js b c qs) : Runs cfg (is ++ js) a c (rs ++ qs) := by
  refine ⟨by simp [h.1, g.1], fun n evs out => ?_⟩
  have e : hostEvents (is ++ js) ++ evs = hostEvents is ++ (hostEvents js ++ evs) := by simp [hostEvents]
  rw [e, List.length_append, Nat.add_assoc, h.2, g.2, List.append_assoc]

/-- One accepted command. -/
theorem Runs.one (hdec : ∀ i, decode (encode i) = .ok i) {cfg : Cfg} {i : Instr} {a : Arch} {e : Arch × Response} (hv : verdict cfg a i = .execute)
    (he : effectOf cfg i a = some e) : Runs cfg [i] a e.1 [e.2] := by
  refine ⟨rfl, fun n evs out => ?_⟩
  have hd := hdec i
  have : stepIn cfg { toArch := a, inbox := hostEvents [i] ++ evs, outbox := out } =
      .next { toArch := e.1, inbox := evs, outbox := out ++ [e.2] } := by
    simp only [stepIn, hostEvents, List.map_cons, List.map_nil, List.cons_append, List.nil_append, hd]
    exact execIn_of_execute (s := { toArch := a, inbox := evs, outbox := out }) hv he
  rw [List.length_singleton, Nat.add_comm, runIn, this]

/-- A run with nothing after it. -/
theorem Runs.run {cfg : Cfg} {is : List Instr} {a a' : Arch} {rs : List Response} (h : Runs cfg is a a' rs) :
    runIn cfg is.length { toArch := a, inbox := hostEvents is, outbox := [] } =
      .next { toArch := a', inbox := [], outbox := rs } := by
  have := h.2 0 [] []
  simpa [runIn] using this

/-- The commands that start an operation (R90, R100). -/
theorem runs_start (hdec : ∀ i, decode (encode i) = .ok i) (cfg : Cfg) (dir : Dir) (key nonce : List Byte) (hk : key.length = 20) (hn : nonce.length = 16) :
    ∃ rs, Runs cfg [.ldkey (lenOf key) (lanes20 key), .init dir (lenOf nonce) (lanes20 nonce)] Arch.reset
      { Arch.reset with S := initSponge cfg (loadKey cfg key) nonce, K := loadKey cfg key, kvalid := true, dir := dir,
                        phase := .initialized } rs ∧
      (∀ r ∈ rs, r.rsp = .ok) ∧ collect rs = [] := by
  have h1 : verdict cfg Arch.reset (.ldkey (lenOf key) (lanes20 key)) = .execute := by
    rw [verdict_execute]; refine ⟨.inl rfl, ?_, rfl, rfl⟩
    simp [lenLegal, lenOf_toNat key (by omega), hk]
  have e1 : dinSlice (lanes20 key) 0 20 = key := by
    have := lanes20_take key (by omega); rw [hk] at this; exact this
  have e2 : dinSlice (lanes20 nonce) 0 16 = nonce := by
    have := lanes20_take nonce (by omega); rw [hn] at this; exact this
  have r1 := Runs.one hdec h1 (e := ({ Arch.reset with K := loadKey cfg key, kvalid := true }, okResponse []))
    (by simp only [effectOf, ldkeyEffect, e1])
  have h2 : verdict cfg { Arch.reset with K := loadKey cfg key, kvalid := true } (.init dir (lenOf nonce) (lanes20 nonce)) = .execute := by
    rw [verdict_execute]; refine ⟨.inl rfl, ?_, rfl, rfl⟩
    simp [lenLegal, lenOf_toNat nonce (by omega), hn]
  have r2 := Runs.one hdec h2 (e := ({ Arch.reset with S := initSponge cfg (loadKey cfg key) nonce, K := loadKey cfg key, kvalid := true, dir := dir, phase := .initialized }, okResponse []))
    (by simp only [effectOf, initEffect, e2])
  refine ⟨_, r1.append r2, ?_, ?_⟩
  · simp
  · simp [collect, okResponse, Response.bytes]

/-- The commands that absorb the associated data (R110, R111). -/
theorem runs_ad (hdec : ∀ i, decode (encode i) = .ok i) (cfg : Cfg) (bs : List (List Byte)) (l : List Byte) (a : Arch) (hb : ∀ b ∈ bs, b.length = cfg.rate.bytes)
    (hl : l.length < cfg.rate.bytes) (he : a.err = false) (hp : a.phase = .initialized ∨ a.phase = .absorbingAD) :
    ∃ rs, Runs cfg (bs.map (fun b => .adblk (lenOf b) (lanes20 b)) ++ [.adlast (lenOf l) (lanes20 l)]) a
      { a with S := absorbLast cfg (bs.foldl (absorbBlock cfg) a.S) l, phase := .processing } rs ∧
      (∀ r ∈ rs, r.rsp = .ok) ∧ collect rs = [] := by
  have hr := Rate.bytes_le cfg.rate
  induction bs generalizing a with
  | nil =>
    have hv : verdict cfg a (.adlast (lenOf l) (lanes20 l)) = .execute := by
      rw [verdict_execute]
      refine ⟨.inl he, ?_, ?_, rfl⟩
      · simp only [lenLegal, lenOf_toNat l (by omega)]; exact decide_eq_true hl
      · rcases hp with hp | hp <;> simp [acceptedNow, hp]
    refine ⟨_, Runs.one hdec hv (e := ({ a with S := absorbLast cfg a.S l, phase := .processing }, okResponse [])) ?_, ?_, ?_⟩
    · simp only [effectOf, adlastEffect, operand_lanes20 l (by omega)]
    · simp
    · simp [collect, okResponse, Response.bytes]
  | cons b bs ih =>
    have hbl : b.length = cfg.rate.bytes := hb b (by simp)
    have hv : verdict cfg a (.adblk (lenOf b) (lanes20 b)) = .execute := by
      rw [verdict_execute]
      refine ⟨.inl he, ?_, ?_, rfl⟩
      · simp only [lenLegal, lenOf_toNat b (by omega), hbl, beq_self_eq_true]
      · rcases hp with hp | hp <;> simp [acceptedNow, hp]
    have h1 := Runs.one hdec hv (e := ({ a with S := absorbBlock cfg a.S b, phase := .absorbingAD }, okResponse []))
      (by simp only [effectOf, adblkEffect, operand_lanes20 b (by omega)])
    obtain ⟨rs, h2, h3, h4⟩ := ih { a with S := absorbBlock cfg a.S b, phase := .absorbingAD }
      (fun c hc => hb c (by simp [hc])) he (.inr rfl)
    refine ⟨_, h1.append h2, ?_, ?_⟩
    · intro r hr
      rcases List.mem_append.mp hr with hr | hr
      · rw [List.mem_singleton.mp hr]; rfl
      · exact h3 r hr
    · simp [collect] at h4 ⊢
      exact ⟨by simp [okResponse, Response.bytes], h4⟩

/-- The commands that encrypt a plaintext (R120, R121). -/
theorem runs_enc (hdec : ∀ i, decode (encode i) = .ok i) (cfg : Cfg) (bs : List (List Byte)) (l : List Byte) (a : Arch) (hb : ∀ b ∈ bs, b.length = cfg.rate.bytes)
    (hl : l.length < cfg.rate.bytes) (he : a.err = false) (hp : a.phase = .processing) (hd : a.ddone = false) (hdir : a.dir = .enc) :
    ∃ rs, Runs cfg (bs.map (fun b => .encblk (lenOf b) (lanes20 b)) ++ [.enclast (lenOf l) (lanes20 l)]) a
      { a with S := (encryptLast cfg (threadBlocks (encryptBlock cfg) a.S bs).1 l).1, ddone := true } rs ∧
      (∀ r ∈ rs, r.rsp = .ok) ∧ collect rs = (threadBlocks (encryptBlock cfg) a.S bs).2 ++
        (encryptLast cfg (threadBlocks (encryptBlock cfg) a.S bs).1 l).2 := by
  have hr := Rate.bytes_le cfg.rate
  induction bs generalizing a with
  | nil =>
    have hv : verdict cfg a (.enclast (lenOf l) (lanes20 l)) = .execute := by
      rw [verdict_execute]
      refine ⟨.inl he, ?_, ?_, rfl⟩
      · simp only [lenLegal, lenOf_toNat l (by omega)]; exact decide_eq_true hl
      · simp [acceptedNow, hp, hd, hdir]
    refine ⟨_, Runs.one hdec hv (e := ({ a with S := (encryptLast cfg a.S l).1, ddone := true }, okResponse (encryptLast cfg a.S l).2)) ?_, ?_, ?_⟩
    · simp only [effectOf, enclastEffect, operand_lanes20 l (by omega)]
    · simp
    · simp only [collect, List.flatMap_cons, List.flatMap_nil, List.append_nil, threadBlocks, List.nil_append]
      exact okResponse_bytes (by simp only [encryptLast]; rw [regionBytes_length _ _ (by omega)]; omega)
  | cons b bs ih =>
    have hbl : b.length = cfg.rate.bytes := hb b (by simp)
    have hv : verdict cfg a (.encblk (lenOf b) (lanes20 b)) = .execute := by
      rw [verdict_execute]
      refine ⟨.inl he, ?_, ?_, rfl⟩
      · simp only [lenLegal, lenOf_toNat b (by omega), hbl, beq_self_eq_true]
      · simp [acceptedNow, hp, hd, hdir]
    have h1 := Runs.one hdec hv (e := ({ a with S := (encryptBlock cfg a.S b).1 }, okResponse (encryptBlock cfg a.S b).2))
      (by simp only [effectOf, encblkEffect, operand_lanes20 b (by omega)])
    obtain ⟨rs, h2, h3, h4⟩ := ih { a with S := (encryptBlock cfg a.S b).1 }
      (fun c hc => hb c (by simp [hc])) he hp hd hdir
    refine ⟨_, h1.append h2, ?_, ?_⟩
    · intro r hr
      rcases List.mem_append.mp hr with hr | hr
      · rw [List.mem_singleton.mp hr]; rfl
      · exact h3 r hr
    · simp only [collect] at h4
      simp only [collect, List.flatMap_append, List.flatMap_cons, List.flatMap_nil, List.append_nil, threadBlocks, h4]
      rw [okResponse_bytes (by simp only [encryptBlock]; rw [regionBytes_length _ _ (by omega)]; omega), List.append_assoc]

/-- The commands that decrypt a ciphertext body into the hold buffer (R130, R131). -/
theorem runs_dec (hdec : ∀ i, decode (encode i) = .ok i) (cfg : Cfg) (bs : List (List Byte)) (l : List Byte) (a : Arch) (hb : ∀ b ∈ bs, b.length = cfg.rate.bytes)
    (hl : l.length < cfg.rate.bytes) (he : a.err = false) (hp : a.phase = .processing) (hd : a.ddone = false)
    (hdir : a.dir = .dec) (hfit : a.plen.toNat + bs.length * cfg.rate.bytes + l.length ≤ cfg.pbufBytes.val) :
    let t := threadBlocks (decryptBlock cfg) a.S bs
    let u := decryptLast cfg t.1 l
    (t.2 ++ u.2).length = bs.length * cfg.rate.bytes + l.length ∧
    ∃ rs, Runs cfg (bs.map (fun b => .decblk (lenOf b) (lanes20 b)) ++ [.declast (lenOf l) (lanes20 l)]) a
      { holdPlaintext (t.2 ++ u.2) a with S := u.1, ddone := true } rs ∧
      (∀ r ∈ rs, r.rsp = .ok) ∧ collect rs = [] := by
  have hr := Rate.bytes_le cfg.rate
  have hlt := cfg.pbufBytes.isLt
  induction bs generalizing a with
  | nil =>
    intro t u
    have hv : verdict cfg a (.declast (lenOf l) (lanes20 l)) = .execute := by
      rw [verdict_execute]
      refine ⟨.inl he, ?_, ?_, ?_⟩
      · simp only [lenLegal, lenOf_toNat l (by omega)]; exact decide_eq_true hl
      · simp [acceptedNow, hp, hd, hdir]
      · simp only [fitsBuffer, lenOf_toNat l (by omega)]; exact decide_eq_true (by simpa using hfit)
    refine ⟨by simp [t, u, threadBlocks, decryptLast, recover_length (show l.length ≤ 16 by omega)], _,
      Runs.one hdec hv (e := ({ holdPlaintext (decryptLast cfg a.S l).2 a with S := (decryptLast cfg a.S l).1, ddone := true }, okResponse [])) ?_, ?_, ?_⟩
    · simp only [effectOf, declastEffect, operand_lanes20 l (by omega)]
    · simp
    · simp [collect, okResponse, Response.bytes]
  | cons b bs ih =>
    intro t u
    have hbl : b.length = cfg.rate.bytes := hb b (by simp)
    rw [List.length_cons, Nat.add_mul, Nat.one_mul] at hfit
    have hv : verdict cfg a (.decblk (lenOf b) (lanes20 b)) = .execute := by
      rw [verdict_execute]
      refine ⟨.inl he, ?_, ?_, ?_⟩
      · simp only [lenLegal, lenOf_toNat b (by omega), hbl, beq_self_eq_true]
      · simp [acceptedNow, hp, hd, hdir]
      · simp only [fitsBuffer, lenOf_toNat b (by omega)]; exact decide_eq_true (by omega)
    have hrec : (recover a.S b).length = cfg.rate.bytes := by rw [recover_length (by omega), hbl]
    have h1 := Runs.one hdec hv (e := ({ holdPlaintext (decryptBlock cfg a.S b).2 a with S := (decryptBlock cfg a.S b).1 }, okResponse []))
      (by simp only [effectOf, decblkEffect, operand_lanes20 b (by omega)])
    have hpl : (holdPlaintext (decryptBlock cfg a.S b).2 a).plen.toNat = a.plen.toNat + cfg.rate.bytes := by
      rw [holdPlaintext_plen, BitVec.toNat_add, BitVec.toNat_ofNat]; simp only [decryptBlock, hrec]; omega
    obtain ⟨hlen, rs, h2, h3, h4⟩ := ih { holdPlaintext (decryptBlock cfg a.S b).2 a with S := (decryptBlock cfg a.S b).1 }
      (fun c hc => hb c (by simp [hc])) he hp hd hdir (by simp only [hpl]; omega)
    refine ⟨?_, [okResponse []] ++ rs, ?_, ?_, ?_⟩
    · simp only [t, u, threadBlocks, List.append_assoc, List.length_append] at hlen ⊢
      rw [hlen]; simp only [decryptBlock, hrec, List.length_cons, Nat.add_mul]; omega
    · have h12 := h1.append h2
      convert h12 using 1
      · simp only [List.map_cons, List.cons_append, List.nil_append]
      have := holdPlaintext_append (decryptBlock cfg a.S b).2
        ((threadBlocks (decryptBlock cfg) (decryptBlock cfg a.S b).1 bs).2 ++
          (decryptLast cfg (threadBlocks (decryptBlock cfg) (decryptBlock cfg a.S b).1 bs).1 l).2) a
        (by
          have e1 : (decryptBlock cfg a.S b).2.length = cfg.rate.bytes := hrec
          have e2 := hlen
          simp only at e2
          omega)
      simp only [t, u, threadBlocks, List.append_assoc]
      rw [← this]
      rfl
    · intro r hr
      rcases List.mem_append.mp hr with hr | hr
      · rw [List.mem_singleton.mp hr]; rfl
      · exact h3 r hr
    · rw [collect_append, h4]; rfl

/-- Reading the hold buffer out, sixteen bytes at a time. -/
theorem runs_read (hdec : ∀ i, decode (encode i) = .ok i) (cfg : Cfg) (k : Nat) (a : Arch) (he : a.err = false) (hp : a.phase = .finalized)
    (hok : a.authOk = true) (hfit : a.plen.toNat ≤ cfg.pbufBytes.val) (hle : a.prd.toNat ≤ a.plen.toNat) :
    ∃ rs b, Runs cfg (List.replicate k (.rdpt 16)) a { a with prd := b } rs ∧ (∀ r ∈ rs, r.rsp = .ok) ∧
      b.toNat = min a.plen.toNat (a.prd.toNat + 16 * k) ∧
      collect rs = (List.range (b.toNat - a.prd.toNat)).map (fun j => a.pbuf.read (a.prd.toNat + j)) := by
  induction k generalizing a with
  | zero =>
    refine ⟨[], a.prd, Runs.nil cfg a, by simp, by omega, by simp [collect]⟩
  | succ k ih =>
    have hlt := cfg.pbufBytes.isLt
    have hv : verdict cfg a (.rdpt 16) = .execute := by
      rw [verdict_execute]
      exact ⟨.inl he, rfl, by simp [acceptedNow, hp, hok], rfl⟩
    have h1 := Runs.one hdec hv (rdptEffect_some (len := 16) hfit)
    generalize hc : readCount 16 a = m at h1
    have hm : m = min 16 (a.plen.toNat - a.prd.toNat) := hc.symm
    have hprd : (a.prd + BitVec.ofNat 32 (m)).toNat = a.prd.toNat + m := by
      rw [BitVec.toNat_add, BitVec.toNat_ofNat]; omega
    obtain ⟨rs, b, h2, h3, h4, h5⟩ := ih { a with prd := a.prd + BitVec.ofNat 32 (m) } he hp hok hfit
      (by simp only [hprd]; omega)
    simp only [hprd] at h4 h5
    refine ⟨_, b, h1.append h2, ?_, by omega, ?_⟩
    · intro r hr
      rcases List.mem_append.mp hr with hr | hr
      · rw [List.mem_singleton.mp hr]; rfl
      · exact h3 r hr
    · rw [collect_append, h5]
      have : collect [(okResponse ((List.range (m)).map fun j => a.pbuf.read (a.prd.toNat + j)))] =
          (List.range (m)).map fun j => a.pbuf.read (a.prd.toNat + j) := by
        simp only [collect, List.flatMap_cons, List.flatMap_nil, List.append_nil]
        exact okResponse_bytes (by simp; omega)
      simp only [this]
      have e : b.toNat - a.prd.toNat = m + (b.toNat - (a.prd.toNat + m)) := by omega
      rw [e, List.range_add, List.map_append, List.map_map]
      congr 1
      apply List.map_congr_left
      intro j _
      simp [Nat.add_assoc]

end Sys2Proof.Machine
end

