-- ==== Sys2Proof/Machine/Assembler.lean ====
section
/-! DEFINITION. The textual form of a command (R80): one line, read into a command (log 19). -/

namespace Sys2Proof.Machine

/-- The value of a hexadecimal digit. -/
def hexDigit (c : Char) : Option Nat :=
  if 48 ≤ c.toNat ∧ c.toNat ≤ 57 then some (c.toNat - 48)
  else if 97 ≤ c.toNat ∧ c.toNat ≤ 102 then some (c.toNat - 87)
  else if 65 ≤ c.toNat ∧ c.toNat ≤ 70 then some (c.toNat - 55)
  else none

/-- Hexadecimal byte pairs, in payload order. -/
def hexBytes : List Char → Option (List Byte)
  | [] => some []
  | [_] => none
  | a :: b :: cs =>
    match hexDigit a, hexDigit b, hexBytes cs with
    | some x, some y, some bs => some (BitVec.ofNat 8 (16 * x + y) :: bs)
    | _, _, _ => none

/-- A payload: byte pairs, or `-` when there is none; at most the 20 lanes of the port. -/
def payloadText (cs : List Char) : Option (List Byte) :=
  if cs = ['-'] then some []
  else
    match hexBytes cs with
    | some bs => if bs.length ≤ 20 then some bs else none
    | none => none

/-- A decimal number, continuing from `n`. -/
def decimalFrom (n : Nat) : List Char → Option Nat
  | [] => some n
  | c :: cs => if 48 ≤ c.toNat ∧ c.toNat ≤ 57 then decimalFrom (10 * n + (c.toNat - 48)) cs else none

/-- The words of a line, up to a comment; `w` is the word begun so far, in reverse. -/
def wordsFrom (w : List Char) : List Char → List (List Char)
  | [] => if w = [] then [] else [w.reverse]
  | c :: cs =>
    if c = ';' then (if w = [] then [] else [w.reverse])
    else if c = ' ' then (if w = [] then wordsFrom [] cs else w.reverse :: wordsFrom [] cs)
    else wordsFrom (c :: w) cs

/-- A command of two words with a payload of `bs`. -/
def payloadCommand (m : List Char) (bs : List Byte) : Option Instr :=
  if m = ['S', 'T', 'A', 'T'] then some (.stat (lenOf bs))
  else if m = ['L', 'D', 'K', 'E', 'Y'] then some (.ldkey (lenOf bs) (lanes20 bs))
  else if m = ['A', 'D', 'B', 'L', 'K'] then some (.adblk (lenOf bs) (lanes20 bs))
  else if m = ['A', 'D', 'L', 'A', 'S', 'T'] then some (.adlast (lenOf bs) (lanes20 bs))
  else if m = ['E', 'N', 'C', 'B', 'L', 'K'] then some (.encblk (lenOf bs) (lanes20 bs))
  else if m = ['E', 'N', 'C', 'L', 'A', 'S', 'T'] then some (.enclast (lenOf bs) (lanes20 bs))
  else if m = ['D', 'E', 'C', 'B', 'L', 'K'] then some (.decblk (lenOf bs) (lanes20 bs))
  else if m = ['D', 'E', 'C', 'L', 'A', 'S', 'T'] then some (.declast (lenOf bs) (lanes20 bs))
  else if m = ['F', 'I', 'N', 'E', 'N', 'C'] then some (.finenc (lenOf bs))
  else if m = ['F', 'I', 'N', 'D', 'E', 'C'] then some (.findec (lenOf bs) (lanes20 bs))
  else if m = ['S', 'C', 'R', 'U', 'B'] then some (.scrub (lenOf bs))
  else none

/-- The direction word of `INIT`. -/
def dirText (cs : List Char) : Option Dir :=
  if cs = ['e', 'n', 'c'] then some .enc else if cs = ['d', 'e', 'c'] then some .dec else none

/-- One line of text as a command (R80). `LEN` is the number of byte pairs written, and for `RDPT` the
count. -/
def assemble (line : List Char) : Option Instr :=
  match wordsFrom [] line with
  | [m, p] =>
    if m = ['R', 'D', 'P', 'T'] then
      match decimalFrom 0 p with
      | some n => if n < 32 then some (.rdpt (BitVec.ofNat 5 n)) else none
      | none => none
    else
      match payloadText p with
      | some bs => payloadCommand m bs
      | none => none
  | [m, d, p] =>
    if m = ['I', 'N', 'I', 'T'] then
      match dirText d, payloadText p with
      | some dir, some bs => some (.init dir (lenOf bs) (lanes20 bs))
      | _, _ => none
    else none
  | _ => none

end Sys2Proof.Machine
end

