-- ==== Sys2Proof/Tests/Slice0.lean ====
section
/-! SUPPORT. Tests: ill-formed commands refused, words written out from R71 and R75, the vectors of
spec/95_test_vectors.md (its section is named with each), and for each statement with hypotheses a witness that
meets them. The expected values are the spec's. -/

namespace Sys2Proof.Tests

open Sys2Proof.Machine

/-! What the vectors use (section 0 of spec/95_test_vectors.md). -/

/-- One round of the stand-in permutation, with round constant `c`. -/
def toyRound (s : Sponge) (c : Nat) : Sponge :=
  let x0 := s.w0 + s.w4.rotateLeft 19 + BitVec.ofNat 64 c
  let x1 := s.w1 + x0.rotateLeft 7
  let x2 := s.w2 ^^^ x1.rotateLeft 41
  let x3 := s.w3 + x2.rotateLeft 11
  ⟨x0, x1, x2, x3, s.w4 ^^^ x3.rotateLeft 29⟩

/-- `n` rounds of the stand-in permutation. -/
def toyRounds : Sponge → Nat → Sponge
  | s, 0 => s
  | s, n + 1 => toyRounds (toyRound s (n + 1)) n

/-- The stand-in permutation `TESTPERM`. -/
def toyPerm (s : Sponge) (rounds : RoundCount) : Sponge := toyRounds s rounds.toNat

/-- The configuration of the vectors. -/
def toyCfg (rate : Rate) (perm : Sponge → RoundCount → Sponge) (size : Fin 4294967296) : Cfg where
  rate := rate
  iv := 0x1122334455667788
  keyrot := keyrotReference
  padByte := 0x01
  dsepWord := 4
  dsepBit := 63
  perm := perm
  pbufBytes := size

/-- The stand-in permutation `ID`. -/
def idPerm (s : Sponge) (_ : RoundCount) : Sponge := s

/-- The 8-byte rate with the identity. -/
def cfg8 : Cfg := toyCfg .r8 idPerm 256

/-- The 16-byte rate with the identity. -/
def cfg16 : Cfg := toyCfg .r16 idPerm 256

/-- The state `SA`. -/
def stateSA : Sponge :=
  ⟨0x0011223344556677, 0x8899aabbccddeeff, 0x0123456789abcdef, 0xfedcba9876543210, 0x0f1e2d3c4b5a6978⟩

/-- `n` bytes counting up from `b`. -/
def bytesFrom (b n : Nat) : List Byte := (List.range n).map (fun i => BitVec.ofNat 8 (b + i))

/-- The key registers of `KEY`. -/
def keyK : KeyFile := ⟨0x0302010000000000, 0x0b0a090807060504, 0x131211100f0e0d0c⟩

/-- A state within an operation. -/
def working (phase : Phase) (dir : Dir) (ddone : Bool) : Arch :=
  { Arch.reset with S := stateSA, K := keyK, kvalid := true, phase := phase, dir := dir, ddone := ddone }

/-- The machine in state `a`, with no event waiting. -/
def inState (a : Arch) : State := { toArch := a, inbox := [], outbox := [] }

/-- The machine in state `a`, with one command waiting. -/
def given (a : Arch) (header : BitVec 16) (bs : List Byte) : State :=
  { toArch := a, inbox := [.command ⟨header, lanes20 bs⟩], outbox := [] }

/-- What `f` sees of the next state. -/
def seen {α : Type} (f : State → α) : Host.Outcome State Fault Refusal → Option α
  | .next t => some (f t)
  | .fault _ => none
  | .refused _ => none

/-- `STATUS` and the codes of the responses given. -/
def statusOf (cfg : Cfg) (s : State) : BitVec 32 × List (BitVec 4) :=
  (status cfg.rate s.toArch, s.outbox.map (fun r => r.rsp.code))

/-- The result bytes given. -/
def givenBytes (s : State) : List Byte := collect s.outbox

/-! Ill-formed commands are refused: every check of R76 and every row of R74. -/

theorem test_reserved_bit_15 : ¬Command.WellFormedAt .r8 ⟨0x8000, Lanes.zero20⟩ := by decide
theorem test_reserved_bit_10 : ¬Command.WellFormedAt .r8 ⟨0x0400, Lanes.zero20⟩ := by decide
theorem test_illegal_opcode_D : ¬Command.WellFormedAt .r16 ⟨0x000D, Lanes.zero20⟩ := by decide
theorem test_illegal_opcode_F : ¬Command.WellFormedAt .r16 ⟨0x01FF, Lanes.zero20⟩ := by decide
theorem test_direction_bit : ¬Command.WellFormedAt .r8 ⟨0x0200, Lanes.zero20⟩ := by decide
theorem test_wellformed_stat : ¬Instr.WellFormedAt .r8 (.stat 1) := by decide
theorem test_wellformed_ldkey : ¬Instr.WellFormedAt .r8 (.ldkey 19 Lanes.zero20) := by decide
theorem test_wellformed_init : ¬Instr.WellFormedAt .r8 (.init .enc 15 Lanes.zero20) := by decide
theorem test_wellformed_adblk : ¬Instr.WellFormedAt .r16 (.adblk 8 Lanes.zero20) := by decide
theorem test_wellformed_adlast : ¬Instr.WellFormedAt .r8 (.adlast 8 Lanes.zero20) := by decide
theorem test_wellformed_encblk : ¬Instr.WellFormedAt .r8 (.encblk 16 Lanes.zero20) := by decide
theorem test_wellformed_enclast : ¬Instr.WellFormedAt .r16 (.enclast 16 Lanes.zero20) := by decide
theorem test_wellformed_decblk : ¬Instr.WellFormedAt .r8 (.decblk 7 Lanes.zero20) := by decide
theorem test_wellformed_declast : ¬Instr.WellFormedAt .r8 (.declast 9 Lanes.zero20) := by decide
theorem test_wellformed_finenc : ¬Instr.WellFormedAt .r8 (.finenc 1) := by decide
theorem test_wellformed_findec : ¬Instr.WellFormedAt .r8 (.findec 17 Lanes.zero20) := by decide
theorem test_wellformed_rdpt_low : ¬Instr.WellFormedAt .r8 (.rdpt 0) := by decide
theorem test_wellformed_rdpt_high : ¬Instr.WellFormedAt .r8 (.rdpt 17) := by decide
theorem test_wellformed_scrub : ¬Instr.WellFormedAt .r8 (.scrub 1) := by decide

/-! Words written out from R71: bits 15:10 zero, bit 9 `DIR`, bits 8:4 `LEN`, bits 3:0 `OP`. -/

theorem test_decode_stat : decodeTableWord 16 0b000000_0_00000_0000 = some (.stat 0) := by decide
theorem test_decode_ldkey :
    decodeTableWord 16 0b000000_0_10100_0001 = some (.ldkey 20 Lanes.zero20) := by decide
theorem test_decode_init_enc :
    decodeTableWord 16 0b000000_0_10000_0010 = some (.init .enc 16 Lanes.zero20) := by decide
theorem test_decode_init_dec :
    decodeTableWord 16 0b000000_1_10000_0010 = some (.init .dec 16 Lanes.zero20) := by decide
theorem test_decode_adblk :
    decodeTableWord 16 0b000000_0_01000_0011 = some (.adblk 8 Lanes.zero20) := by decide
theorem test_decode_adlast :
    decodeTableWord 16 0b000000_0_00011_0100 = some (.adlast 3 Lanes.zero20) := by decide
theorem test_decode_encblk :
    decodeTableWord 16 0b000000_0_10000_0101 = some (.encblk 16 Lanes.zero20) := by decide
theorem test_decode_enclast :
    decodeTableWord 16 0b000000_0_00111_0110 = some (.enclast 7 Lanes.zero20) := by decide
theorem test_decode_decblk :
    decodeTableWord 16 0b000000_0_01000_0111 = some (.decblk 8 Lanes.zero20) := by decide
theorem test_decode_declast :
    decodeTableWord 16 0b000000_0_00001_1000 = some (.declast 1 Lanes.zero20) := by decide
theorem test_decode_finenc : decodeTableWord 16 0b000000_0_00000_1001 = some (.finenc 0) := by decide
theorem test_decode_findec :
    decodeTableWord 16 0b000000_0_10000_1010 = some (.findec 16 Lanes.zero20) := by decide
theorem test_decode_rdpt : decodeTableWord 16 0b000000_0_10000_1011 = some (.rdpt 16) := by decide
theorem test_decode_scrub : decodeTableWord 16 0b000000_0_00000_1100 = some (.scrub 0) := by decide

/-- Payload byte `i` stands above the header (log 8): the header of `ADLAST` with bytes 0xa0, 0xa1. -/
theorem test_decode_payload : decodeTableWord 32 0xa1a00024 = some (.adlast 2 (lanes20 [0xa0, 0xa1])) := by
  decide

/-- The order of the header checks (section 3.8). -/
theorem test_decode_errors :
    (decode ⟨0x040D, Lanes.zero20⟩ = .error .reservedBits) ∧ (decode ⟨0x020D, Lanes.zero20⟩ = .error .illegalOp) ∧
      (decode ⟨0x0201, Lanes.zero20⟩ = .error .reservedBits) := by decide

/-- Lines of R80 and the headers it gives for them. -/
theorem test_assemble_lines :
    (assemble "INIT dec 101112131415161718191a1b1c1d1e1f".toList).map (fun i => (encode i).header) = some 0x0302 ∧
      (assemble "ADLAST a0a1a2 ; header 0x0034".toList).map encode = some ⟨0x0034, lanes20 [0xa0, 0xa1, 0xa2]⟩ ∧
      (assemble "ADLAST -".toList).map (fun i => (encode i).header) = some 0x0004 ∧
      (assemble "FINENC -".toList).map (fun i => (encode i).header) = some 0x0009 ∧
      (assemble "RDPT 16".toList).map (fun i => (encode i).header) = some 0x010B := by decide

/-! Primitives (section 2 and section 0). -/

theorem test_loadBytes : loadBytes [0x01, 0x02, 0x03] = 0x0000000000030201 := by decide
theorem test_storeBytes : storeBytes 0x1122334455667788 3 = [0x88, 0x77, 0x66] := by decide
theorem test_mask : mask 3 = 0xffffff ∧ mask 8 = 0xffffffffffffffff ∧ mask 0 = 0 := by decide
theorem test_padMarker : padMarker cfg8 3 = 0x0000000001000000 ∧ padMarker cfg8 7 = 0x0100000000000000 := by decide
theorem test_keyrot : keyrotReference 0x0302010000000000 0x0b0a090807060504 = 0x0706050403020100 := by decide
theorem test_xorRegion : (xorRegion (bytesFrom 0xa0 11) stateSA).w1 = 0x8899aabbcc774757 := by decide
theorem test_padRegion : (padRegion cfg16 11 stateSA).w1 = 0x8899aabbcdddeeff := by decide
theorem test_regionBytes : regionBytes 11 stateSA =
    [0x77, 0x66, 0x55, 0x44, 0x33, 0x22, 0x11, 0x00, 0xff, 0xee, 0xdd] := by decide
theorem test_replaceRegion : (replaceRegion (bytesFrom 0xa0 11) stateSA).w1 = 0x8899aabbccaaa9a8 := by decide
theorem test_toyPerm : toyPerm ⟨1, 2, 3, 4, 5⟩ 1 =
    ⟨0x0000000000280002, 0x0000000014000102, 0x000204000000002b, 0x1020000000015804, 0x00002b0082040005⟩ := by
  decide

/-- The port carries `S[0]` lowest and the round count in 4 bits (R65). -/
theorem test_permRequest : (permRequest roundsA ⟨1, 2, 3, 4, 5⟩).words.extractLsb' 0 64 = 1 ∧
    (permRequest roundsA ⟨1, 2, 3, 4, 5⟩).words.extractLsb' 256 64 = 5 ∧
    (permRequest roundsA ⟨1, 2, 3, 4, 5⟩).rounds = 0b1100 := by decide

/-- The domain separation (R112) at the reference bit. -/
theorem test_domainSeparate : domainSeparate cfg8 ⟨0, 0, 0, 0, 0x8000000000000001⟩ = ⟨0, 0, 0, 0, 1⟩ := by decide

/-! Commands (section 3). -/

theorem test_ldkey : seen (fun t => (t.K, statusOf cfg8 t))
    (stepIn cfg8 (given Arch.reset 0x0141 (bytesFrom 0 20))) = some (keyK, 0x00000008, [0]) := by decide

theorem test_init : seen (fun t => (t.S, statusOf cfg8 t))
    (stepIn cfg8 (given { Arch.reset with K := keyK, kvalid := true } 0x0302 (bytesFrom 0x10 16))) =
    some (⟨0x1220324455667788, 0x0b0a090807060504, 0x101010100f0e0d0c, 0x1c1c1c1c14141414, 0x0c0c0c0c14141414⟩,
      0x00000019, [0]) := by decide

theorem test_init_rounds : seen (fun t => t.S.w0)
    (stepIn (toyCfg .r8 toyPerm 256)
      (given { Arch.reset with K := keyK, kvalid := true } 0x0102 (bytesFrom 0x10 16))) =
    some 0xd38782ba8c239088 := by decide

theorem test_adblk : seen (fun t => (t.S.w0, statusOf cfg8 t))
    (stepIn (toyCfg .r8 toyPerm 256) (given (working .initialized .enc false) 0x0083 (bytesFrom 0xa0 8))) =
    some (0x6a7a35245ee22703, 0x0000000A, [0]) := by decide

theorem test_adblk_16 : seen (fun t => (t.S.w4, statusOf cfg16 t))
    (stepIn (toyCfg .r16 toyPerm 256) (given (working .initialized .enc false) 0x0103 (bytesFrom 0xa0 16))) =
    some (0x16cf3eaef90365a9, 0x0000400A, [0]) := by decide

theorem test_adlast : seen (fun t => (t.S, statusOf cfg8 t))
    (stepIn cfg8 (given (working .initialized .enc false) 0x0034 (bytesFrom 0xa0 3))) =
    some (⟨0x0011223345f7c7d7, 0x8899aabbccddeeff, 0x0123456789abcdef, 0xfedcba9876543210, 0x8f1e2d3c4b5a6978⟩,
      0x0000000B, [0]) := by decide

theorem test_encblk : seen (fun t => (t.S.w0, givenBytes t))
    (stepIn (toyCfg .r8 toyPerm 256) (given (working .processing .enc false) 0x0085 (bytesFrom 0x40 8))) =
    some (0x35b46623711da2e9, [0x37, 0x27, 0x17, 0x07, 0x77, 0x67, 0x57, 0x47]) := by decide

theorem test_enclast : seen (fun t => (t.S.w1, givenBytes t))
    (stepIn cfg16 (given (working .processing .enc false) 0x0096 (bytesFrom 0x40 9))) =
    some (0x8899aabbccddefb7, [0x37, 0x27, 0x17, 0x07, 0x77, 0x67, 0x57, 0x47, 0xb7]) := by decide

theorem test_decblk : seen (fun t => (t.S.w0, t.plen, (List.range 8).map t.pbuf.read))
    (stepIn (toyCfg .r8 toyPerm 256) (given (working .processing .dec false) 0x0087
      [0x37, 0x27, 0x17, 0x07, 0x77, 0x67, 0x57, 0x47])) =
    some (0x35b46623711da2e9, 8, bytesFrom 0x40 8) := by decide

theorem test_declast : seen (fun t => (t.S.w0, (List.range 4).map t.pbuf.read, givenBytes t, statusOf cfg8 t))
    (stepIn cfg8 (given (working .processing .dec false) 0x0038 [0x37, 0x27, 0x17])) =
    some (0x0011223345172737, [0x40, 0x41, 0x42, 0x00], [], 0x0000003B, [0]) := by decide

theorem test_finenc : seen (fun t => (givenBytes t, statusOf cfg8 t))
    (stepIn cfg8 (given (working .processing .enc true) 0x0009 [])) =
    some ([0x04, 0x26, 0x40, 0x62, 0x90, 0xb3, 0xd6, 0xf5, 0x74, 0x64, 0x54, 0x44, 0x2c, 0x3c, 0x0c, 0x1c],
      0x00000024, [0]) := by decide

theorem test_findec :
    seen (fun t => (t.plen, statusOf cfg8 t))
      (stepIn (toyCfg .r8 toyPerm 256) (given { working .processing .dec true with plen := 3 } 0x010A
        [0x80, 0x1a, 0xd1, 0x2a, 0x6a, 0x82, 0x8a, 0x79, 0x3a, 0x72, 0x2e, 0x12, 0x4f, 0xc5, 0xdd, 0x80])) =
      some (3, 0x00000074, [0]) ∧
    seen (fun t => (t.plen, t.pbuf.read 0, statusOf cfg8 t))
      (stepIn cfg8 (given { working .processing .dec true with plen := 3, pbuf := [(0, 0x41)] } 0x010A
        [0x04, 0x26, 0x40, 0x62, 0x90, 0xb3, 0xd6, 0xf5, 0x74, 0x64, 0x54, 0x44, 0x2c, 0x3c, 0x0c, 0x9c])) =
      some (0, 0, 0x000000B4, [1]) := by decide

theorem test_findec_undersized : seen (statusOf cfg8)
    (stepIn cfg8 (given (working .processing .dec true) 0x00FA (List.replicate 15 0xee))) =
    some (0x000020B4, [1]) := by decide

/-- A whole encryption (section 4, `a = 0`, `p = 0`), as a function on strings. -/
theorem test_message : encryptMessage (toyCfg .r8 toyPerm 256) (bytesFrom 0 20) (bytesFrom 0x10 16) [] [] =
    [0xa2, 0xd9, 0x73, 0x36, 0xf5, 0x1f, 0x8f, 0x14, 0x59, 0x21, 0x0a, 0xb6, 0x1f, 0x04, 0xa5, 0xf8] := by
  simp only [encryptMessage, stateAfterAD, initSponge, absorbAD, absorbLast, processEncrypt, finalizeCore, permute_eq]
  decide

theorem test_stat : seen givenBytes
    (stepIn cfg8 (given { Arch.reset with
      phase := .finalized, dir := .dec, ddone := true, authOk := true, plen := 9, prd := 4 } 0x0000 [])) =
    some [0x74, 0, 0, 0, 0x09, 0, 0, 0, 0x04, 0, 0, 0] := by decide

theorem test_rdpt : seen (fun t => (givenBytes t, t.prd))
    (stepIn cfg8 (given { Arch.reset with
      phase := .finalized, dir := .dec, ddone := true, authOk := true, plen := 20, prd := 17,
      pbuf := memWrite [] 0 (bytesFrom 0x40 20) } 0x010B [])) = some ([0x51, 0x52, 0x53], 20) := by decide

theorem test_scrub : seen (fun t => t.toArch)
    (stepIn cfg8 (given (working .processing .dec true) 0x000C [])) = some Arch.reset := by decide

/-- Faults (section 3.8): one of each code, and the overflow of a hold buffer of 16 bytes. -/
theorem test_faults :
    seen (statusOf cfg8) (stepIn cfg8 (given Arch.reset 0x01FF [])) = some (0x00000304, [2]) ∧
    seen (statusOf cfg8) (stepIn cfg8 (given Arch.reset 0x0400 [])) = some (0x00000504, [2]) ∧
    seen (statusOf cfg8) (stepIn cfg8 (given Arch.reset 0x0012 [])) = some (0x00000704, [2]) ∧
    seen (statusOf cfg8) (stepIn cfg8 (given Arch.reset 0x010B [])) = some (0x00000904, [2]) ∧
    seen (statusOf cfg8) (stepIn (toyCfg .r8 idPerm 16)
      (given { working .processing .dec false with plen := 16 } 0x0018 [0])) = some (0x00000B04, [2]) := by decide

/-- A faulted core serves `0x0000` and refuses `0x001C` and `0x000D` unchanged (section 3.8). -/
theorem test_error_state :
    seen givenBytes (stepIn cfg8 (given (faultEntry .badPhase Arch.reset) 0x0000 [])) =
      some [0x04, 0x09, 0, 0, 0, 0, 0, 0, 0, 0, 0, 0] ∧
    seen (statusOf cfg8) (stepIn cfg8 (given (faultEntry .badPhase Arch.reset) 0x001C [])) =
      some (0x00000904, [2]) ∧
    seen (statusOf cfg8) (stepIn cfg8 (given (faultEntry .badPhase Arch.reset) 0x000D [])) =
      some (0x00000904, [2]) := by decide

/-! Witnesses: for each statement with hypotheses, states and operands that meet them, one for each clause. -/

/-- The `LEN` of a full block at the configured rate, whichever it is. -/
def blockLen : BitVec 5 := BitVec.ofNat 5 Config.rate.bytes

theorem blockLen_toNat : blockLen.toNat = Config.rate.bytes := by
  unfold blockLen; cases Config.rate <;> rfl

/-- Lanes that hold the tag of an operation in state `s`. -/
def matchingTag (s : State) : Lanes 20 := lanes20 (tagBytes (finalizeCore Config.cfg s.K s.S))

theorem matchingTag_slice (s : State) :
    dinSlice (matchingTag s) 0 16 = tagBytes (finalizeCore Config.cfg s.K s.S) := by
  simp [dinSlice, matchingTag, lanes20, List.take_append]

theorem matchingTag_difference (s : State) :
    tagDifference (finalizeCore Config.cfg s.K s.S) (dinSlice (matchingTag s) 0 16) = 0 :=
  (tagDifference_eq_zero _ _ (by rw [matchingTag_slice, tagBytes_length])).mpr (matchingTag_slice s)

/-- A decryption whose data is complete. -/
def decrypted (S : Sponge) : State := inState { working .processing .dec true with S := S }

/-- What a matching tag leaves. -/
def verified (S : Sponge) : State :=
  (decrypted S).complete
    ({ zeroizeSecrets (decrypted S).toArch with phase := .finalized, authOk := true }, okResponse [])

/-- A matching tag is accepted. -/
theorem decrypted_exec (S : Sponge) : exec (.findec 16 (matchingTag (decrypted S))) (decrypted S) = .next (verified S) := by
  have hv : verdict Config.cfg (decrypted S).toArch (.findec 16 (matchingTag (decrypted S))) = .execute :=
    verdict_execute.mpr ⟨.inl rfl, rfl, rfl, rfl⟩
  rw [exec_eq, execIn_of_execute (e := findecVerify Config.cfg (matchingTag (decrypted S)) (decrypted S).toArch) hv rfl,
    findecVerify, if_pos (matchingTag_difference (decrypted S))]
  rfl

/-- The machine where `FINDEC` with the matching tag is next. -/
def verifying (S : Sponge) : State :=
  { decrypted S with inbox := [.command ⟨0x010A, matchingTag (decrypted S)⟩] }

/-- The step that verifies a matching tag. -/
theorem verifying_step (S : Sponge) : step (verifying S) = .next (verified S) := by
  have f : rsvField 0x010A = 0 ∧ opField 0x010A = 10 ∧ lenField 0x010A = 16 ∧ dirField 0x010A = 0 := by decide
  have hd : decode ⟨0x010A, matchingTag (decrypted S)⟩ = .ok (.findec 16 (matchingTag (decrypted S))) := by
    simp only [decode, f.1, f.2.1, f.2.2.1, f.2.2.2, selectRow]; rfl
  simp only [step, verifying, hd]
  exact decrypted_exec S

/-- A `STAT` has a next state whatever the state. -/
theorem stat_steps (a : Arch) : ∃ t, step (given a 0x0000 []) = .next t := by
  have hd : decode ⟨0x0000, lanes20 []⟩ = .ok (.stat 0) := rfl
  simp only [step_eq, stepIn, given, hd]
  exact ⟨_, execIn_of_execute (verdict_always (.inl rfl)) rfl⟩

theorem witness_EncodeInvertsDecode : decode ⟨0x0141, lanes20 (bytesFrom 0 20)⟩ = .ok (.ldkey 20 (lanes20 (bytesFrom 0 20))) ∧
    opField 0x0141 ≠ 0x0 ∧ opField 0x0141 ≠ 0x9 ∧ opField 0x0141 ≠ 0xB ∧ opField 0x0141 ≠ 0xC := by decide

theorem witness_DecoderSelectsTheTableRow : decode ⟨0x01FC, Lanes.zero20⟩ = .ok (.scrub 31) ∧
    decode ⟨0x01FD, Lanes.zero20⟩ = .error .illegalOp := by decide

/-- One header for each clause: reserved bit 10, opcode 0xD, `DIR` on opcode 0x1, `LDKEY` with a `LEN` of 21, `INIT dec`
with a legal `LEN`; and two commands with the same header. -/
theorem witness_DecodingIsTotalOverHeaders :
    (rsvField 0x040D ≠ 0) ∧ (rsvField 0x020D = 0 ∧ 13 ≤ (opField 0x020D).toNat) ∧
    (rsvField 0x0201 = 0 ∧ (opField 0x0201).toNat < 13 ∧ dirField 0x0201 = 1 ∧ (opField 0x0201).toNat ≠ 2) ∧
    (rsvField 0x0151 = 0 ∧ (opField 0x0151).toNat < 13 ∧ dirField 0x0151 ≠ 1 ∧
      ¬legalLength Rate.r8.bytes (opField 0x0151).toNat (lenField 0x0151).toNat) ∧
    (rsvField 0x0302 = 0 ∧ (opField 0x0302).toNat = 2 ∧ dirField 0x0302 = 1 ∧
      legalLength Rate.r8.bytes (opField 0x0302).toNat (lenField 0x0302).toNat) ∧
    (Command.header ⟨0x0151, lanes20 [1]⟩ = Command.header ⟨0x0151, Lanes.zero20⟩) ∧
      classify .r8 ⟨0x0151, Lanes.zero20⟩ = .error .badLen := by
  refine ⟨by decide, by decide, by decide, ?_, ?_, by decide⟩ <;> unfold legalLength <;> decide

theorem witness_StepRunsTheDecodedCommand :
    (given Arch.reset 0x010B []).inbox = .command ⟨0x010B, lanes20 []⟩ :: [] ∧
      decode ⟨0x010B, lanes20 []⟩ = .ok (.rdpt 16) := by decide

theorem witness_IdleStepChangesNothing : State.reset.inbox = [] := rfl

/-- One state for each of the eight clauses: refused, reserved bit 10, opcode 0xD, `DIR` on opcode 0x1, a `LEN`
one too large, `RDPT` at reset, one byte more than the buffer can hold, and an empty last block that fits. -/
theorem witness_ChecksAreMadeInOrder :
    ((faultEntry .badPhase Arch.reset).err = true ∧ (0x0010 : BitVec 16) ≠ 0x0000 ∧ (0x0010 : BitVec 16) ≠ 0x000C) ∧
    (Arch.reset.err = false ∧ rsvField 0x040D ≠ 0) ∧
    (rsvField 0x020D = 0 ∧ 13 ≤ (opField 0x020D).toNat) ∧
    (rsvField 0x0201 = 0 ∧ (opField 0x0201).toNat < 13 ∧ dirField 0x0201 = 1 ∧ (opField 0x0201).toNat ≠ 2) ∧
    (rsvField 0x011B = 0 ∧ (opField 0x011B).toNat < 13 ∧ dirField 0x011B = 0 ∧
      ¬legalLength Config.cfg.rate.bytes (opField 0x011B).toNat (lenField 0x011B).toNat) ∧
    (legalLength Config.cfg.rate.bytes (opField 0x010B).toNat (lenField 0x010B).toNat ∧
      ¬acceptance Arch.reset (opField 0x010B).toNat (lenField 0x010B).toNat) ∧
    (legalLength Config.cfg.rate.bytes (opField 0x0018).toNat (lenField 0x0018).toNat ∧
      acceptance (working .processing .dec false) (opField 0x0018).toNat (lenField 0x0018).toNat ∧
      Config.cfg.pbufBytes.val < (BitVec.ofNat 32 Config.cfg.pbufBytes.val).toNat + (lenField 0x0018).toNat) ∧
    (legalLength Config.cfg.rate.bytes (opField 0x0008).toNat (lenField 0x0008).toNat ∧
      acceptance (working .processing .dec false) (opField 0x0008).toNat (lenField 0x0008).toNat ∧
      (0 : BitVec 32).toNat + (lenField 0x0008).toNat ≤ Config.cfg.pbufBytes.val) := by
  have h := Config.cfg.pbufBytes.isLt
  have f : (opField 0x011B).toNat = 11 ∧ (lenField 0x011B).toNat = 17 ∧ (opField 0x010B).toNat = 11 ∧
      (lenField 0x010B).toNat = 16 ∧ (opField 0x0018).toNat = 8 ∧ (lenField 0x0018).toNat = 1 ∧
      (opField 0x0008).toNat = 8 ∧ (lenField 0x0008).toNat = 0 := by decide
  obtain ⟨f1, f2, f3, f4, f5, f6, f7, f8⟩ := f
  have r := Rate.bytes_le Config.rate
  have r1 : 1 < Config.rate.bytes := by cases Config.rate <;> decide
  have e : (BitVec.ofNat 32 Config.cfg.pbufBytes.val).toNat = Config.cfg.pbufBytes.val := by simp
  rw [f1, f2, f3, f4, f5, f6, f7, f8, e]
  refine ⟨by decide, by decide, by decide, by decide, ⟨by decide, by decide, by decide, ?_⟩, ⟨?_, ?_⟩,
    ⟨?_, ?_, by omega⟩, ⟨?_, ?_, by simp⟩⟩ <;>
    simp [legalLength, acceptance, working, r1]
  omega

theorem witness_ErrorStateServesTwoHeaders :
    (given (faultEntry .badPhase Arch.reset) 0x000C []).err = true ∧
      (0x001C : BitVec 16) ≠ 0x0000 ∧ (0x001C : BitVec 16) ≠ 0x000C := by decide

theorem witness_OneResponsePerCommand : ∃ t, (given Arch.reset 0x0000 []).inbox = .command ⟨0x0000, lanes20 []⟩ :: [] ∧
    step (given Arch.reset 0x0000 []) = .next t :=
  let ⟨t, h⟩ := stat_steps Arch.reset; ⟨t, rfl, h⟩

theorem witness_ScrubAndResetHaveTheSameEffect :
    ({ State.reset with inbox := [.reset] } : State).inbox = .reset :: [] := rfl

theorem witness_StatReturnsStatusAndCounts : (1 : BitVec 5) ≠ 0 ∧ State.reset.err = false := by decide

theorem witness_LdkeyLoadsTheKey : (21 : BitVec 5) ≠ 20 ∧ Arch.reset.err = false ∧
    (working .initialized .enc false).phase ≠ .uninitialized ∧
    Arch.reset.phase = .uninitialized ∧ Arch.reset.kvalid = false := by decide

theorem witness_InitSeedsTheState : (15 : BitVec 5) ≠ 16 ∧ Arch.reset.err = false ∧ Arch.reset.kvalid = false ∧
    ({ Arch.reset with K := keyK, kvalid := true } : Arch).phase = .uninitialized ∧
    ({ Arch.reset with K := keyK, kvalid := true } : Arch).kvalid = true := by decide

theorem witness_AdblkAbsorbsABlock : (0 : BitVec 5).toNat ≠ Config.rate.bytes ∧
    blockLen.toNat = Config.rate.bytes ∧ (working .processing .enc false).err = false ∧
    (working .processing .enc false).phase ≠ .initialized ∧ (working .processing .enc false).phase ≠ .absorbingAD ∧
    (working .absorbingAD .enc false).phase = .absorbingAD :=
  ⟨by cases Config.rate <;> decide, blockLen_toNat, rfl, by decide, by decide, rfl⟩

theorem witness_AdlastPadsAndSeparates : Config.rate.bytes ≤ blockLen.toNat ∧
    (BitVec.ofNat 5 (Config.rate.bytes - 1)).toNat < Config.rate.bytes ∧ (0 : BitVec 5).toNat < Config.rate.bytes ∧
    (working .initialized .enc false).err = false ∧ (working .initialized .enc false).phase = .initialized ∧
    (working .processing .enc false).phase ≠ .initialized ∧ (working .processing .enc false).phase ≠ .absorbingAD :=
  ⟨by rw [blockLen_toNat], by cases Config.rate <;> decide, by cases Config.rate <;> decide, rfl, rfl, by decide,
    by decide⟩

theorem witness_EncblkEncryptsABlock : (31 : BitVec 5).toNat ≠ Config.rate.bytes ∧
    blockLen.toNat = Config.rate.bytes ∧ (working .processing .enc false).err = false ∧
    ¬((working .processing .dec false).phase = .processing ∧ (working .processing .dec false).ddone = false ∧
      (working .processing .dec false).dir = .enc) ∧
    (working .processing .enc false).phase = .processing ∧ (working .processing .enc false).ddone = false ∧
    (working .processing .enc false).dir = .enc :=
  ⟨by cases Config.rate <;> decide, blockLen_toNat, rfl, by decide, rfl, rfl, rfl⟩

theorem witness_EnclastEncryptsTheLastBlock : Config.rate.bytes ≤ blockLen.toNat ∧
    (BitVec.ofNat 5 (Config.rate.bytes - 1)).toNat < Config.rate.bytes ∧ (0 : BitVec 5).toNat < Config.rate.bytes ∧
    ¬((working .processing .enc true).phase = .processing ∧ (working .processing .enc true).ddone = false ∧
      (working .processing .enc true).dir = .enc) ∧
    (working .processing .enc false).err = false ∧ (working .processing .enc false).phase = .processing ∧
    (working .processing .enc false).ddone = false ∧ (working .processing .enc false).dir = .enc :=
  ⟨by rw [blockLen_toNat], by cases Config.rate <;> decide, by cases Config.rate <;> decide, by decide, rfl, rfl,
    rfl, rfl⟩

/-- On the instance of the vectors: too short, in an encryption, one block too many, and a block that just fits. -/
theorem witness_DecblkDecryptsABlock : (7 : BitVec 5).toNat ≠ cfg8.rate.bytes ∧ (8 : BitVec 5).toNat = cfg8.rate.bytes ∧
    (working .processing .dec false).err = false ∧
    ¬((working .processing .enc false).phase = .processing ∧ (working .processing .enc false).ddone = false ∧
      (working .processing .enc false).dir = .dec) ∧
    (working .processing .dec false).phase = .processing ∧ (working .processing .dec false).ddone = false ∧
    (working .processing .dec false).dir = .dec ∧
    cfg8.pbufBytes.val < (249 : BitVec 32).toNat + cfg8.rate.bytes ∧
    (248 : BitVec 32).toNat + cfg8.rate.bytes ≤ cfg8.pbufBytes.val := by decide

theorem witness_DeclastDecryptsTheLastBlock : cfg8.rate.bytes ≤ (8 : BitVec 5).toNat ∧
    (7 : BitVec 5).toNat < cfg8.rate.bytes ∧ (0 : BitVec 5).toNat < cfg8.rate.bytes ∧
    (working .processing .dec false).err = false ∧
    ¬((working .processing .dec true).phase = .processing ∧ (working .processing .dec true).ddone = false ∧
      (working .processing .dec true).dir = .dec) ∧
    (working .processing .dec false).phase = .processing ∧ (working .processing .dec false).ddone = false ∧
    (working .processing .dec false).dir = .dec ∧
    cfg8.pbufBytes.val < (250 : BitVec 32).toNat + (7 : BitVec 5).toNat ∧
    (249 : BitVec 32).toNat + (7 : BitVec 5).toNat ≤ cfg8.pbufBytes.val ∧
    (256 : BitVec 32).toNat + (0 : BitVec 5).toNat ≤ cfg8.pbufBytes.val := by decide

theorem witness_FinencReturnsTheTag : (1 : BitVec 5) ≠ 0 ∧ (working .processing .enc true).err = false ∧
    ¬((working .processing .enc false).phase = .processing ∧ (working .processing .enc false).ddone = true ∧
      (working .processing .enc false).dir = .enc) ∧
    (working .processing .enc true).phase = .processing ∧ (working .processing .enc true).ddone = true ∧
    (working .processing .enc true).dir = .enc := by decide

/-- A matching tag exists in every state, and so does one that does not match. -/
theorem witness_FindecVerifiesTheTag : (working .processing .dec true).err = false ∧
    ¬((working .processing .dec false).phase = .processing ∧ (working .processing .dec false).ddone = true ∧
      (working .processing .dec false).dir = .dec) ∧
    (working .processing .dec true).phase = .processing ∧ (working .processing .dec true).ddone = true ∧
    (working .processing .dec true).dir = .dec ∧
    (∃ din, tagDifference (finalizeCore Config.cfg keyK stateSA) (dinSlice din 0 16) = 0) ∧
    (∃ din, tagDifference (finalizeCore Config.cfg keyK stateSA) (dinSlice din 0 16) ≠ 0) := by
  refine ⟨rfl, by decide, rfl, rfl, rfl, ⟨_, matchingTag_difference (decrypted stateSA)⟩, ?_⟩
  by_cases h : tagDifference (finalizeCore Config.cfg keyK stateSA) (dinSlice Lanes.zero20 0 16) = 0
  · refine ⟨lanes20 (List.replicate 16 1), fun h' => ?_⟩
    have a := (tagDifference_eq_zero _ _ (by decide)).mp h
    have b := (tagDifference_eq_zero _ _ (by decide)).mp h'
    exact absurd (a.trans b.symm) (by decide)
  · exact ⟨_, h⟩

theorem witness_FindecReportsUndersized : 16 < (17 : BitVec 5).toNat ∧ (15 : BitVec 5).toNat < 16 ∧
    Arch.reset.err = false ∧ Arch.reset.phase = .uninitialized ∧
    ¬((working .initialized .enc false).phase = .uninitialized ∨
      ((working .initialized .enc false).dir = .dec ∧ (working .initialized .enc false).phase ≠ .finalized)) ∧
    (working .processing .dec true).dir = .dec ∧ (working .processing .dec true).phase ≠ .finalized := by decide

/-- A state whose plaintext has been released, with four bytes left to read. -/
def released : Arch :=
  { Arch.reset with
    phase := .finalized, dir := .dec, ddone := true, authOk := true, plen := 256, prd := 252,
    pbuf := memWrite [] 0 (bytesFrom 1 255) }

theorem witness_RdptReleasesPlaintext : (0 : BitVec 5).toNat = 0 ∧ 16 < (17 : BitVec 5).toNat ∧
    1 ≤ (1 : BitVec 5).toNat ∧ (16 : BitVec 5).toNat ≤ 16 ∧ released.err = false ∧
    ¬(Arch.reset.phase = .finalized ∧ Arch.reset.authOk = true) ∧ released.phase = .finalized ∧
    released.authOk = true ∧ released.prd.toNat ≤ released.plen.toNat ∧ released.plen.toNat ≤ cfg8.pbufBytes.val := by
  decide

theorem witness_ScrubLeavesTheResetState : (1 : BitVec 5) ≠ 0 ∧ (working .processing .enc true).err = false := by
  decide

theorem witness_DecryptionStoresOnlyItsBlock : (working .processing .dec false).pbuf.wf = true ∧
    verdict cfg8 { working .processing .dec false with plen := 248 } (.decblk 8 (lanes20 (bytesFrom 0 8))) = .execute ∧
    verdict cfg8 { working .processing .dec false with plen := 249 } (.declast 7 (lanes20 (bytesFrom 0 7))) = .execute := by
  decide

/-- The clause on `FINDEC` is met by a tag that matches. -/
theorem witness_OtherCommandsKeepTheBuffer :
    verdict Config.cfg (decrypted stateSA).toArch (.findec 16 (matchingTag (decrypted stateSA))) = .execute ∧
    exec (.findec 16 (matchingTag (decrypted stateSA))) (decrypted stateSA) = .next (verified stateSA) ∧
    (verified stateSA).authFail = false ∧
    verdict Config.cfg (working .processing .dec true) (.stat 0) = .execute ∧
    ∃ t, exec (.stat 0) (inState (working .processing .dec true)) = .next t :=
  ⟨rfl, decrypted_exec stateSA, rfl, verdict_always (.inl rfl), _, exec_stat_zero _⟩

/-- A step, for the statements about every step (`KeyIsWrittenByLdkeyOnly`, `PhaseMovesForward`). -/
theorem witness_step : ∃ t, step (given Arch.reset 0x0000 []) = .next t := stat_steps Arch.reset

theorem witness_FinalizedHoldsNoSecret : step (verifying stateSA) = .next (verified stateSA) ∧
    (verifying stateSA).phase ≠ .finalized ∧ (verified stateSA).phase = .finalized :=
  ⟨verifying_step stateSA, by decide, rfl⟩

theorem witness_AuthOkNeedsAMatchingTag : step (verifying stateSA) = .next (verified stateSA) ∧
    (verifying stateSA).authOk = false ∧ (verified stateSA).authOk = true :=
  ⟨verifying_step stateSA, rfl, rfl⟩

theorem witness_PlaintextStaysSealed : (working .processing .dec false).authOk = false := rfl

/-- Two states that differ in `S`, each with its own matching tag. -/
theorem witness_PublicBehaviourIgnoresSecrets :
    (verifying stateSA).publicView = (verifying Sponge.zero).publicView ∧
    step (verifying stateSA) = .next (verified stateSA) ∧ step (verifying Sponge.zero) = .next (verified Sponge.zero) ∧
    (tagDifference (finalizeCore Config.cfg keyK stateSA) (dinSlice (matchingTag (decrypted stateSA)) 0 16) = 0 ↔
      tagDifference (finalizeCore Config.cfg keyK Sponge.zero)
        (dinSlice (matchingTag (decrypted Sponge.zero)) 0 16) = 0) :=
  ⟨rfl, verifying_step stateSA, verifying_step Sponge.zero,
    iff_of_true (matchingTag_difference (decrypted stateSA)) (matchingTag_difference (decrypted Sponge.zero))⟩

theorem witness_UnusedPayloadIsIgnored :
    (lanes20 (bytesFrom 0 4)).val.take (lenField 0x0034).toNat = (lanes20 (bytesFrom 0 3)).val.take (lenField 0x0034).toNat ∧
      opField 0x0009 = 0x9 := by decide

/-- Both rates, and a permutation that differs at every round count but 12. -/
theorem witness_PermutationIsCalledAtItsRoundsOnly : cfg8.rate = .r8 ∧ cfg16.rate = .r16 ∧
    ∀ r ∈ permCalls cfg8 (.finenc 0), ∀ x, (fun s n => if n = 12 then s else Sponge.zero) x r = cfg8.perm x r := by
  refine ⟨rfl, rfl, fun r hr x => ?_⟩
  rw [List.mem_singleton.mp hr]; rfl

/-- Two instances with a command each: both present, and both steps taken. -/
theorem witness_InstancesAreIndependent :
    [(cfg8, given Arch.reset 0x0000 []), (cfg16, given Arch.reset 0x000C [])][1]? =
      some (cfg16, given Arch.reset 0x000C []) ∧
    (seen (fun t => t.kvalid) (stepIn cfg8 (given Arch.reset 0x0141 (bytesFrom 0 20))) = some true) ∧
    ∃ x y, (0 : Nat) ≠ 1 ∧
      stepInstance 0 [(cfg8, given Arch.reset 0x0000 []), (cfg16, given Arch.reset 0x000C [])] = .next x ∧
      stepInstance 1 [(cfg8, given Arch.reset 0x0000 []), (cfg16, given Arch.reset 0x000C [])] = .next y :=
  ⟨rfl, by decide, _, _, by decide, rfl, rfl⟩

theorem witness_StepKeepsTheInvariant : ∃ t, State.Inv (given Arch.reset 0x0000 []) ∧
    step (given Arch.reset 0x0000 []) = .next t :=
  let ⟨t, h⟩ := stat_steps Arch.reset
  ⟨t, ⟨reset_inv _, fun r hr => absurd hr (by simp [given])⟩, h⟩

theorem witness_ReachableStatesMeetR37 : ∃ t, Reachable t ∧ t.outbox ≠ [] := by
  obtain ⟨t, h⟩ := stat_steps Arch.reset
  refine ⟨t, .step _ t (.start [.command ⟨0x0000, lanes20 []⟩]) h, ?_⟩
  have hd : decode ⟨0x0000, lanes20 []⟩ = .ok (.stat 0) := rfl
  simp only [step_eq, stepIn, given, hd] at h
  rw [execIn_of_execute (verdict_always (.inl rfl)) rfl] at h
  cases h
  simp

theorem witness_EveryEventHasANextState : State.Inv (given Arch.reset 0x010B []) :=
  ⟨reset_inv _, fun r hr => absurd hr (by simp [given])⟩

theorem witness_ByteTransfersAreLittleEndian : 8 ≤ 8 ∧ 7 < 8 ∧ (bytesFrom 1 8).length ≤ 8 := by decide

theorem witness_RegionPrimitivesActOnTheirBytes : (bytesFrom 0xa0 16).length ≤ 16 ∧ 15 < 16 ∧ 16 ≤ 16 := by
  decide

/-- A state for each phase and each fault code. -/
theorem witness_StatusFields : Arch.reset.phase = .uninitialized ∧ (working .initialized .dec false).phase = .initialized ∧
    (working .absorbingAD .dec false).phase = .absorbingAD ∧ (working .processing .dec false).phase = .processing ∧
    (faultEntry .badPhase Arch.reset).phase = .finalized ∧ Arch.reset.errCode = none ∧
    ∀ c, (faultEntry c Arch.reset).errCode = some c := ⟨rfl, rfl, rfl, rfl, rfl, rfl, fun _ => rfl⟩

theorem witness_DecryptionMirrorsEncryption : (bytesFrom 0x40 16).length = cfg16.rate.bytes ∧
    (bytesFrom 0x40 15).length < cfg16.rate.bytes ∧ ([] : List Byte).length < cfg8.rate.bytes := by decide

theorem witness_ChangedTagIsRejected : (List.replicate 16 (0 : Byte)).length = 16 ∧
    (encryptMessage cfg8 (bytesFrom 0 20) (bytesFrom 0x10 16) [] [0x40]).take 1 ++ List.replicate 16 0 ≠
      encryptMessage cfg8 (bytesFrom 0 20) (bytesFrom 0x10 16) [] [0x40] := by decide

theorem witness_EncryptSequenceComputesEncrypt : (bytesFrom 0 20).length = 20 ∧ (bytesFrom 0x10 16).length = 16 := by
  decide

/-- A ciphertext that verifies, on a buffer that just holds its body, and one too short to hold a tag. -/
theorem witness_DecryptSequenceComputesDecrypt : (bytesFrom 0 20).length = 20 ∧ (bytesFrom 0x10 16).length = 16 ∧
    (encryptMessage (toyCfg .r8 idPerm 9) (bytesFrom 0 20) (bytesFrom 0x10 16) [] (bytesFrom 0x40 9)).length - 16 ≤
      (toyCfg .r8 idPerm 9).pbufBytes.val ∧
    decryptMessage (toyCfg .r8 idPerm 9) (bytesFrom 0 20) (bytesFrom 0x10 16) []
      (encryptMessage (toyCfg .r8 idPerm 9) (bytesFrom 0 20) (bytesFrom 0x10 16) [] (bytesFrom 0x40 9)) =
      some (bytesFrom 0x40 9) ∧
    decryptMessage (toyCfg .r8 idPerm 9) (bytesFrom 0 20) (bytesFrom 0x10 16) [] (bytesFrom 0 15) = none := by decide

end Sys2Proof.Tests
end

/-! PROOFS. The statements about the configuration and the permutation port (spec/00_scope.md): the machine at
its own configuration (R8), the domain separation bit by bit (R112), the words on the port (R65), and the
calls of `PERM` a command makes (R233). -/

namespace Sys2Proof.Machine

/-! The machine is `execIn`, `stepIn` and `runIn` at `Config.cfg`. -/

/-- The host's run of the machine is `runIn` at `Config.cfg` (R8, R228). -/
theorem core_run_eq (n : Nat) (s : State) : Host.Core.run Sys2Proof.core n s = runIn Config.cfg n s := by
  induction n generalizing s with
  | zero => rfl
  | succ n ih =>
    have hstep : Sys2Proof.core.step s = stepIn Config.cfg s := step_eq s
    simp only [Host.Core.run, runIn]
    rw [hstep]
    cases stepIn Config.cfg s with
    | next t => exact ih t
    | fault f => rfl
    | refused r => rfl

/-- Settles O8: the step is `step_eq`, and the run is the step iterated. -/
theorem machineIsTheConfiguredInstance : Obligations.MachineIsTheConfiguredInstance :=
  ⟨exec_eq, step_eq, core_run_eq⟩

/-! The five state words by number, and the domain separation. -/

/-- The state words in the order of their numbers, `S[0]` first (R20). -/
def stateWords (s : Sponge) : List W64 := [s.w0, s.w1, s.w2, s.w3, s.w4]

theorem stateWords_getElem? (s : Sponge) (i : Fin 5) : (stateWords s)[i.val]? = some (wordAt s i) := by
  fin_cases i <;> rfl

theorem stateWords_setWord (s : Sponge) (i : Fin 5) (v : W64) :
    stateWords (setWord s i v) = (stateWords s).set i.val v := by
  fin_cases i <;> rfl

/-- The exclusive-or with `1 << b` inverts bit `b` and no other. -/
theorem getLsbD_xor_one_shiftLeft (w : W64) (b : Fin 64) (j : Nat) :
    (w ^^^ (1#64 <<< b.val)).getLsbD j = if j = b.val then !w.getLsbD j else w.getLsbD j := by
  rw [BitVec.getLsbD_xor, ← BitVec.twoPow_eq, BitVec.getLsbD_twoPow]
  by_cases hj : j = b.val
  · simp [hj]
  · simp [hj, Ne.symm hj]

/-- The domain separation writes one word, and in it inverts one bit (R112). -/
theorem wordAt_domainSeparate_getLsbD (cfg : Cfg) (s : Sponge) (i : Fin 5) (j : Nat) :
    (wordAt (domainSeparate cfg s) i).getLsbD j =
      if i = cfg.dsepWord ∧ j = cfg.dsepBit.val then !(wordAt s i).getLsbD j else (wordAt s i).getLsbD j := by
  rw [domainSeparate, wordAt_setWord]
  by_cases hi : i = cfg.dsepWord
  · subst hi
    simp only [if_true, true_and, getLsbD_xor_one_shiftLeft]
  · simp [hi]

/-- Settles O52: word by word, then bit by bit in the word that is written. -/
theorem domainSeparationInvertsOneBit : Obligations.DomainSeparationInvertsOneBit :=
  fun cfg s i v j => ⟨stateWords_getElem? s i, stateWords_setWord s i v, wordAt_domainSeparate_getLsbD cfg s i j⟩

/-! The permutation port. -/

/-- Word `i` of the request bus is `S[i]` (R65). -/
theorem permBus_word (s : Sponge) (i : Fin 5) : (permBus s).extractLsb' (64 * i.val) 64 = wordAt s i := by
  rw [← wordAt_ofPermBus, ofPermBus_permBus]

/-- Settles O53: both buses carry the words in the same order, so the words cross the port unchanged. -/
theorem permutationPortCarriesTheWords : Obligations.PermutationPortCarriesTheWords :=
  fun cfg rounds s answer i =>
    ⟨permBus_word s i, rfl, wordAt_ofPermBus answer i, rfl, permute_eq cfg rounds s⟩

/-! The calls of `PERM`. -/

/-- The calls of a command by its opcode and `LEN`, as R233 lists them. -/
theorem permCalls_eq (cfg : Cfg) (i : Instr) : permCalls cfg i =
    if i.opcode = 0x2 ∨ i.opcode = 0x9 ∨ (i.opcode = 0xA ∧ i.len = 16) then [12]
    else if i.opcode = 0x3 ∨ i.opcode = 0x4 ∨ i.opcode = 0x5 ∨ i.opcode = 0x7 then [cfg.rate.roundsB]
    else [] := by
  cases i <;> simp [permCalls, roundsA, Instr.opcode, Instr.len]

/-- The round counts a command calls `PERM` at are `ROUNDS_A` and `ROUNDS_B` (R65). -/
theorem permCalls_rounds {cfg : Cfg} {i : Instr} {r : RoundCount} (hr : r ∈ permCalls cfg i) :
    r = 12 ∨ r = cfg.rate.roundsB := by
  rw [permCalls_eq] at hr
  split at hr
  · exact .inl (List.mem_singleton.mp hr)
  · split at hr
    · exact .inr (List.mem_singleton.mp hr)
    · cases hr

section
variable {cfg : Cfg} {perm' : Sponge → RoundCount → Sponge}

/-- One call of the permutation, with another unit that agrees at its round count. -/
theorem permute_congr {r : RoundCount} (h : ∀ x, perm' x r = cfg.perm x r) (s : Sponge) :
    permute { cfg with perm := perm' } r s = permute cfg r s := by
  rw [permute_eq, permute_eq]
  exact h s

/-- No check asks the permutation unit. -/
theorem verdict_withPerm (a : Arch) (i : Instr) : verdict { cfg with perm := perm' } a i = verdict cfg a i := rfl

/-- `FinalizeCore` calls the permutation at `ROUNDS_A` (R140). -/
theorem finalizeCore_congr (h : ∀ x, perm' x roundsA = cfg.perm x roundsA) (k : KeyFile) (s : Sponge) :
    finalizeCore { cfg with perm := perm' } k s = finalizeCore cfg k s := by
  simp only [finalizeCore, permute_congr h]

/-- A command's effect depends on `PERM` at the round counts of its calls only (R233). -/
theorem effectOf_congr {i : Instr} (h : ∀ r ∈ permCalls cfg i, ∀ x, perm' x r = cfg.perm x r) (a : Arch) :
    effectOf { cfg with perm := perm' } i a = effectOf cfg i a := by
  cases i with
  | stat len => rfl
  | ldkey len din => rfl
  | init dir len din =>
    simp only [effectOf, initEffect, initSponge, permute_congr (h _ (.head _))]; rfl
  | adblk len din =>
    simp only [effectOf, adblkEffect, absorbBlock, permute_congr (h _ (.head _))]
  | adlast len din =>
    simp only [effectOf, adlastEffect, absorbLast, permute_congr (h _ (.head _))]; rfl
  | encblk len din =>
    simp only [effectOf, encblkEffect, encryptBlock, permute_congr (h _ (.head _))]
  | enclast len din => rfl
  | decblk len din =>
    simp only [effectOf, decblkEffect, decryptBlock, permute_congr (h _ (.head _))]
  | declast len din => rfl
  | finenc len =>
    simp only [effectOf, finencEffect, finalizeCore_congr (h _ (.head _))]
  | findec len din =>
    by_cases hl : len = 16
    · subst hl
      simp only [effectOf, findecEffect, if_true, findecVerify, finalizeCore_congr (h _ (.head _))]
    · simp only [effectOf, findecEffect, if_neg hl]
  | rdpt len => rfl
  | scrub len => rfl

/-- A command's outcome depends on `PERM` at the round counts of its calls only (R233). -/
theorem execIn_congr {i : Instr} (h : ∀ r ∈ permCalls cfg i, ∀ x, perm' x r = cfg.perm x r) (s : State) :
    execIn { cfg with perm := perm' } i s = execIn cfg i s := by
  rw [execIn_eq, execIn_eq, runReading, runReading, verdict_withPerm, effectOf_congr h]

end

/-- Settles O37: the calls by opcode, and a meaning is the checks, which ask no unit, and then the effect. -/
theorem permutationIsCalledAtItsRoundsOnly : Obligations.PermutationIsCalledAtItsRoundsOnly := by
  intro cfg perm' i s h
  have rate8 : cfg.rate = .r8 → cfg.rate.bytes = 8 ∧ cfg.rate.roundsB = 6 := fun hr => by rw [hr]; exact ⟨rfl, rfl⟩
  have rate16 : cfg.rate = .r16 → cfg.rate.bytes = 16 ∧ cfg.rate.roundsB = 8 := fun hr => by rw [hr]; exact ⟨rfl, rfl⟩
  exact ⟨rate8, rate16, fun _ hr => permCalls_rounds hr, permCalls_eq cfg i, execIn_congr h s⟩

end Sys2Proof.Machine


/-! PROOFS. The statements about the state (spec/10_state.md): what every step keeps (R37), which commands write
`K`, `PHASE`, `AUTH_OK` and `PBUF`, the reset values (R36), and the fields of `STATUS` (R31). -/

namespace Sys2Proof.Machine

/-! The invariant at reset and across a step (R37). -/

/-- Reset meets the invariant whatever the host will present. -/
theorem reset_withInbox_inv (events : List HostEvent) : State.Inv { State.reset with inbox := events } :=
  ⟨reset_inv Config.cfg, fun _ hr => absurd hr List.not_mem_nil⟩

/-- A meaning that answers a next state adds one well-formed response (R73). -/
theorem execIn_outbox {cfg : Cfg} {i : Instr} {s t : State} (h : execIn cfg i s = .next t) :
    ∃ r : Response, r.WellFormed ∧ t.outbox = s.outbox ++ [r] := by
  rcases execIn_next h with ⟨-, rfl⟩ | ⟨c, -, rfl⟩ | ⟨hv, e, he, rfl⟩
  · exact ⟨faultResponse, emptyResponse_wf .fault, rfl⟩
  · exact ⟨faultResponse, emptyResponse_wf .fault, rfl⟩
  · obtain ⟨-, hlen, -, -⟩ := verdict_execute.mp hv
    exact ⟨e.2, effectOf_wf hlen he, rfl⟩

/-- A refused header is answered with one well-formed response (R192, R195). -/
theorem rejectHeader_outbox (c : FaultCode) (s : State) :
    ∃ r : Response, r.WellFormed ∧ (s.rejectHeader c).outbox = s.outbox ++ [r] := by
  refine ⟨faultResponse, emptyResponse_wf .fault, ?_⟩
  unfold State.rejectHeader
  split <;> rfl

/-- A step adds at most one response, and that one is well-formed. -/
theorem stepIn_outbox {cfg : Cfg} {s t : State} (h : stepIn cfg s = .next t) :
    t.outbox = s.outbox ∨ ∃ r : Response, r.WellFormed ∧ t.outbox = s.outbox ++ [r] := by
  rcases stepIn_next h with ⟨-, rfl⟩ | ⟨rest, -, rfl⟩ | ⟨c, rest, f, -, -, rfl⟩ | ⟨c, rest, i, -, -, hx⟩
  · exact .inl rfl
  · exact .inl rfl
  · exact .inr (rejectHeader_outbox f _)
  · obtain ⟨r, hr, hout⟩ := execIn_outbox hx
    exact .inr ⟨r, hr, hout⟩

/-- A step keeps the invariant of the architectural state. -/
theorem step_arch_inv {s t : State} (hs : s.toArch.Inv Config.cfg) (h : step s = .next t) :
    t.toArch.Inv Config.cfg := by
  rcases step_arch h with heq | ⟨heq, -⟩ | ⟨-, c, heq⟩ | ⟨c, rest, i, e, -, -, hv, he, heq⟩ <;> rw [heq]
  · exact hs
  · exact reset_inv Config.cfg
  · exact faultEntry_inv Config.cfg c s.toArch
  · exact effectOf_inv hs hv he

/-- A step keeps every response given so far well-formed. -/
theorem step_responses_wf {s t : State} (hs : ∀ r ∈ s.outbox, r.WellFormed) (h : step s = .next t) :
    ∀ r ∈ t.outbox, r.WellFormed := by
  rcases stepIn_outbox (step_eq s ▸ h) with heq | ⟨r, hr, heq⟩ <;> rw [heq]
  · exact hs
  · intro q hq
    rcases List.mem_append.mp hq with hq | hq
    · exact hs q hq
    · rw [List.mem_singleton.mp hq]; exact hr

/-- Settles O39: the reset state, by `reset_inv`, and no response has been given. -/
theorem invariantHoldsAtReset : Obligations.InvariantHoldsAtReset :=
  reset_withInbox_inv []

/-- Settles O40: the state by what a step can do to it, the responses by the one a step adds. -/
theorem stepKeepsTheInvariant : Obligations.StepKeepsTheInvariant :=
  fun _ _ hs h => ⟨step_arch_inv hs.arch h, step_responses_wf hs.responses h⟩

/-- Every reachable state meets the invariant: it holds at reset and every step keeps it. -/
theorem Reachable.inv {s : State} (h : Reachable s) : s.Inv := by
  induction h with
  | start events => exact reset_withInbox_inv events
  | step s t _ hst ih => exact stepKeepsTheInvariant s t ih hst

/-- Settles O41: R37 is part of the invariant. -/
theorem reachableStatesMeetR37 : Obligations.ReachableStatesMeetR37 :=
  fun _ h => h.inv.arch.toR37

/-! `STAT` (R155). -/

/-- `STAT` returns twelve bytes. -/
theorem statBytes_length (cfg : Cfg) (a : Arch) : (statBytes cfg a).length = 12 := by
  simp [statBytes]

/-- Settles O14: `STAT` is executed in every state, and its effect is the response alone. -/
theorem statReturnsStatusAndCounts : Obligations.StatReturnsStatusAndCounts := by
  intro len s
  refine ⟨by decide, ?_, fun hlen herr => ?_⟩
  · rw [exec_stat_zero, statEffect, okResponse, statBytes_length]
    rfl
  · have hbad : lenLegal Config.cfg.rate (.stat len) = false := by
      simpa [lenLegal, ← BitVec.toNat_inj] using hlen
    exact exec_badLen herr hbad

/-! What an executed command writes. -/

/-- `RDPT`, where it completes, moves `PRD` and nothing else of the state (R156). -/
theorem rdptEffect_arch {cfg : Cfg} {len : BitVec 5} {a : Arch} {e : Arch × Response}
    (h : rdptEffect cfg len a = some e) : e.1 = { a with prd := a.prd + BitVec.ofNat 32 (readCount len a) } := by
  unfold rdptEffect at h
  split at h
  · cases h; rfl
  · cases h

/-- `FINDEC` succeeds, or enters an `AuthenticationFailure` (R142, R143). -/
theorem findecEffect_arch (cfg : Cfg) (len : BitVec 5) (din : Lanes 20) (a : Arch) :
    (len = 16 ∧ tagDifference (finalizeCore cfg a.K a.S) (dinSlice din 0 16) = 0 ∧
        (findecEffect cfg len din a).1 = { zeroizeSecrets a with phase := .finalized, authOk := true }) ∨
      ∃ cause, (findecEffect cfg len din a).1 = authFailureEntry cause a := by
  unfold findecEffect findecVerify
  split
  · rename_i hlen
    split
    · rename_i hd
      exact .inl ⟨hlen, hd, rfl⟩
    · exact .inr ⟨_, rfl⟩
  · exact .inr ⟨_, rfl⟩

/-- The hold buffer and its count are written by the two decryption commands, by `SCRUB`, and by a `FINDEC`
that fails. -/
theorem effectOf_buffer {cfg : Cfg} {i : Instr} {a : Arch} {e : Arch × Response}
    (he : effectOf cfg i a = some e) (hblk : ∀ len din, i ≠ .decblk len din)
    (hlast : ∀ len din, i ≠ .declast len din) (hscrub : ∀ len, i ≠ .scrub len)
    (hfail : ∀ len din, i = .findec len din → e.1.authFail = false) :
    e.1.pbuf = a.pbuf ∧ e.1.plen = a.plen := by
  cases i with
  | decblk len din => exact absurd rfl (hblk len din)
  | declast len din => exact absurd rfl (hlast len din)
  | scrub len => exact absurd rfl (hscrub len)
  | findec len din =>
    have hok := hfail len din rfl
    cases he
    rcases findecEffect_arch cfg len din a with ⟨-, -, harch⟩ | ⟨cause, harch⟩ <;> rw [harch] at hok ⊢
    · exact ⟨rfl, rfl⟩
    · simp at hok
  | rdpt len => rw [rdptEffect_arch he]; exact ⟨rfl, rfl⟩
  | _ => cases he; exact ⟨rfl, rfl⟩

/-- Settles O29: an executed command is its effect, and these effects keep `PBUF` whole. -/
theorem otherCommandsKeepTheBuffer : Obligations.OtherCommandsKeepTheBuffer := by
  intro i s t hv hx hblk hlast hscrub hfail
  rcases execIn_next (exec_eq i s ▸ hx) with ⟨hv', -⟩ | ⟨c, hv', -⟩ | ⟨-, e, he, rfl⟩
  · cases hv.symm.trans hv'
  · cases hv.symm.trans hv'
  · obtain ⟨hbuf, hplen⟩ := effectOf_buffer he hblk hlast hscrub hfail
    exact ⟨fun k => congrArg (Memory.read · k) hbuf, hplen⟩

/-- A command keeps `K` or zeroizes it, unless it is `LDKEY` (R22). -/
theorem effectOf_key {cfg : Cfg} {i : Instr} {a : Arch} {e : Arch × Response} (he : effectOf cfg i a = some e) :
    e.1.K = a.K ∨ e.1.K = KeyFile.zero ∨ ∃ len din, i = .ldkey len din := by
  cases i with
  | ldkey len din => exact .inr (.inr ⟨len, din, rfl⟩)
  | finenc len => cases he; exact .inr (.inl rfl)
  | findec len din =>
    cases he
    rcases findecEffect_arch cfg len din a with ⟨-, -, harch⟩ | ⟨cause, harch⟩ <;>
      exact .inr (.inl (congrArg Arch.K harch))
  | scrub len => cases he; exact .inr (.inl rfl)
  | rdpt len => rw [rdptEffect_arch he]; exact .inl rfl
  | _ => cases he; exact .inl rfl

/-- When `LDKEY` is executed (R25, R74). -/
theorem ldkey_executes {cfg : Cfg} {len : BitVec 5} {din : Lanes 20} {a : Arch}
    (hv : verdict cfg a (.ldkey len din) = .execute) : len = 20 ∧ a.phase = .uninitialized ∧ a.kvalid = false := by
  obtain ⟨-, hlen, hacc, -⟩ := verdict_execute.mp hv
  have h20 : len.toNat = 20 := by simpa [lenLegal] using hlen
  exact ⟨BitVec.eq_of_toNat_eq h20, by simpa [acceptedNow] using hacc⟩

/-- Settles O30: reset and a fault zeroize `K`, and of the executed commands only `LDKEY` loads it. -/
theorem keyIsWrittenByLdkeyOnly : Obligations.KeyIsWrittenByLdkeyOnly := by
  intro s t h
  rcases step_arch h with heq | ⟨heq, -⟩ | ⟨-, c, heq⟩ | ⟨c, rest, i, e, hin, hd, hv, he, heq⟩ <;> rw [heq]
  · exact .inl rfl
  · exact .inr (.inl rfl)
  · exact .inr (.inl rfl)
  · rcases effectOf_key he with hk | hk | ⟨len, din, rfl⟩
    · exact .inl hk
    · exact .inr (.inl hk)
    · obtain ⟨rfl, hphase, hkey⟩ := ldkey_executes hv
      exact .inr (.inr ⟨hphase, hkey, c, rest, din, hin, hd⟩)

/-! `PHASE` (R24). -/

/-- `Finalized` is the last phase. -/
theorem Phase.code_le_finalized (p : Phase) : p.code.toNat ≤ Phase.finalized.code.toNat := by
  cases p <;> decide

/-- The phases in which R25 accepts associated data come no later than `AbsorbingAD`. -/
theorem Phase.code_le_absorbingAD {p : Phase} (h : (p == .initialized || p == .absorbingAD) = true) :
    p.code.toNat ≤ Phase.absorbingAD.code.toNat := by
  revert h
  cases p <;> decide

/-- An executed command does not decrease `PHASE`, unless it is `SCRUB`. -/
theorem effectOf_phase {cfg : Cfg} {i : Instr} {a : Arch} {e : Arch × Response}
    (hv : verdict cfg a i = .execute) (he : effectOf cfg i a = some e) :
    a.phase.code.toNat ≤ e.1.phase.code.toNat ∨ (i = .scrub 0 ∧ e.1 = Arch.reset) := by
  obtain ⟨-, hlen, hacc, -⟩ := verdict_execute.mp hv
  cases i with
  | scrub len =>
    cases he
    have h0 : len.toNat = 0 := by simpa [lenLegal] using hlen
    exact .inr ⟨congrArg Instr.scrub (BitVec.eq_of_toNat_eq h0), discardOperation_eq a⟩
  | init dir len din =>
    cases he
    simp only [acceptedNow, Bool.and_eq_true, beq_iff_eq] at hacc
    rw [hacc.1]
    exact .inl (Nat.zero_le _)
  | adblk len din => cases he; exact .inl (Phase.code_le_absorbingAD hacc)
  | adlast len din =>
    cases he
    exact .inl (Nat.le_trans (Phase.code_le_absorbingAD hacc) (Nat.le_succ _))
  | finenc len => cases he; exact .inl (Phase.code_le_finalized _)
  | findec len din =>
    cases he
    rcases findecEffect_arch cfg len din a with ⟨-, -, harch⟩ | ⟨cause, harch⟩ <;> rw [harch] <;>
      exact .inl (Phase.code_le_finalized _)
  | rdpt len => rw [rdptEffect_arch he]; exact .inl (Nat.le_refl _)
  | _ => cases he; exact .inl (Nat.le_refl _)

/-- A command that decodes to `SCRUB` has the header `0x000C`. -/
theorem decode_scrub_header {c : Command} (h : decode c = .ok (.scrub 0)) : c.header = 0x000C :=
  (decode_ok_header h).symm.trans (by decide)

/-- Settles O31: a fault enters the last phase, and of the executed commands only `SCRUB` goes back. -/
theorem phaseMovesForward : Obligations.PhaseMovesForward := by
  intro s t h
  rcases step_arch h with heq | ⟨heq, rest, hin⟩ | ⟨-, c, heq⟩ | ⟨c, rest, i, e, hin, hd, hv, he, heq⟩ <;>
    rw [heq]
  · exact .inl (Nat.le_refl _)
  · exact .inr ⟨rfl, .reset, rest, hin, .inl rfl⟩
  · exact .inl (Phase.code_le_finalized _)
  · rcases effectOf_phase hv he with hle | ⟨rfl, hreset⟩
    · exact .inl hle
    · have hc : c = ⟨0x000C, c.din⟩ := congrArg (Command.mk · c.din) (decode_scrub_header hd)
      exact .inr ⟨hreset, .command c, rest, hin, .inr ⟨c.din, congrArg HostEvent.command hc⟩⟩

/-! `AUTH_OK` (R29). -/

/-- The sixteen tag bytes of a `FINDEC` payload (R142). -/
theorem dinSlice_tag_length (din : Lanes 20) : (dinSlice din 0 16).length = 16 := by
  simp [dinSlice, din.2]

/-- An executed command sets `AUTH_OK` only if it is `FINDEC` with the tag of the finalization (R142, R144). -/
theorem effectOf_authOk {cfg : Cfg} {i : Instr} {a : Arch} {e : Arch × Response}
    (he : effectOf cfg i a = some e) (h0 : a.authOk = false) (h1 : e.1.authOk = true) :
    ∃ din, i = .findec 16 din ∧ tagBytes (finalizeCore cfg a.K a.S) = dinSlice din 0 16 := by
  have unchanged : e.1.authOk = a.authOk → False := fun heq => by simp [heq, h0] at h1
  cases i with
  | findec len din =>
    cases he
    rcases findecEffect_arch cfg len din a with ⟨rfl, htag, -⟩ | ⟨cause, harch⟩
    · exact ⟨din, rfl, ((tagDifference_eq_zero _ _ (dinSlice_tag_length din)).mp htag).symm⟩
    · exact (unchanged (by rw [harch, authFailureEntry_authOk])).elim
  | scrub len => cases he; exact absurd h1 Bool.false_ne_true
  | rdpt len => exact (unchanged (by rw [rdptEffect_arch he])).elim
  | _ => cases he; exact (unchanged rfl).elim

/-- When `FINDEC` with a whole tag is executed (R25). -/
theorem findec_executes {cfg : Cfg} {din : Lanes 20} {a : Arch} (hv : verdict cfg a (.findec 16 din) = .execute) :
    a.phase = .processing ∧ a.ddone = true ∧ a.dir = .dec := by
  obtain ⟨-, -, hacc, -⟩ := verdict_execute.mp hv
  simpa [acceptedNow, and_assoc] using hacc

/-- Settles O33: no other way a step can go sets `AUTH_OK`. -/
theorem authOkNeedsAMatchingTag : Obligations.AuthOkNeedsAMatchingTag := by
  intro s t h h0 h1
  rcases step_arch h with heq | ⟨heq, -⟩ | ⟨-, c, heq⟩ | ⟨c, rest, i, e, hin, hd, hv, he, heq⟩ <;>
    rw [heq] at h1
  · exact absurd (h0.symm.trans h1) (by decide)
  · exact absurd h1 (by decide)
  · exact absurd (faultEntry_authOk c s.toArch ▸ h1) (by decide)
  · obtain ⟨din, rfl, htag⟩ := effectOf_authOk he h0 h1
    obtain ⟨hphase, hdone, hdir⟩ := findec_executes hv
    exact ⟨c, rest, din, hin, hd, hphase, hdone, hdir, htag⟩

/-! The status register (R31). -/

/-- `STATUS` as its fields side by side, at the width the fields add up to. -/
theorem extractLsb'_status (rate : Rate) (a : Arch) (start len : Nat) :
    (status rate a).extractLsb' start len = BitVec.extractLsb' start len
      (0#17 ++ rateSel rate ++ a.authCause.bit ++ errCodeBits a.errCode ++ flagBit a.err ++ flagBit a.authFail ++
        flagBit a.authOk ++ flagBit a.ddone ++ a.dir.bit ++ flagBit a.kvalid ++ a.phase.code) := rfl

/-- The fields of `STATUS` at their positions. -/
theorem status_fields (rate : Rate) (a : Arch) :
    (status rate a).extractLsb' 0 3 = a.phase.code ∧ (status rate a).extractLsb' 3 1 = flagBit a.kvalid ∧
    (status rate a).extractLsb' 4 1 = a.dir.bit ∧ (status rate a).extractLsb' 5 1 = flagBit a.ddone ∧
    (status rate a).extractLsb' 6 1 = flagBit a.authOk ∧ (status rate a).extractLsb' 7 1 = flagBit a.authFail ∧
    (status rate a).extractLsb' 8 1 = flagBit a.err ∧ (status rate a).extractLsb' 9 4 = errCodeBits a.errCode ∧
    (status rate a).extractLsb' 13 1 = a.authCause.bit ∧ (status rate a).extractLsb' 14 1 = rateSel rate ∧
    (status rate a).extractLsb' 15 17 = 0 := by
  simp (disch := decide) only [extractLsb'_status, BitVec.extractLsb'_append_eq_of_le,
    BitVec.extractLsb'_append_eq_right, BitVec.extractLsb'_eq_self, Nat.reduceSub, BitVec.ofNat_eq_ofNat, and_self]

/-- A bit of a word is the bit of its one-bit field. -/
theorem getLsbD_of_extractLsb' {v : BitVec 32} {k : Nat} {b : BitVec 1} (h : v.extractLsb' k 1 = b) :
    v.getLsbD k = b.getLsbD 0 := by
  rw [← h, BitVec.getLsbD_extractLsb']; simp

@[simp] theorem flagBit_getLsbD (b : Bool) : (flagBit b).getLsbD 0 = b := by cases b <;> rfl

theorem dirBit_getLsbD (d : Dir) : d.bit.getLsbD 0 = true ↔ d = .dec := by cases d <;> decide

theorem AuthCause.bit_getLsbD (c : AuthCause) : c.bit.getLsbD 0 = true ↔ c = .undersized := by cases c <;> decide

theorem rateSel_getLsbD (r : Rate) : (rateSel r).getLsbD 0 = true ↔ r = .r16 := by cases r <;> decide

/-- Settles O45: the fields by position, then the numbers each field's values have. -/
theorem statusFields : Obligations.StatusFields := by
  intro rate a
  obtain ⟨phase, kvalid, dir, ddone, authOk, authFail, err, errCode, cause, sel, zero⟩ := status_fields rate a
  have flag : ∀ {k : Nat} {b : Bool}, (status rate a).extractLsb' k 1 = flagBit b → (status rate a).getLsbD k = b :=
    fun h => (getLsbD_of_extractLsb' h).trans (flagBit_getLsbD _)
  have phaseIs : ∀ p, a.phase = p → (status rate a).extractLsb' 0 3 = p.code := fun p hp => hp ▸ phase
  have codeIs : ∀ c, a.errCode = c → (status rate a).extractLsb' 9 4 = errCodeBits c := fun c hc => hc ▸ errCode
  refine ⟨phase, kvalid, dir, ddone, authOk, authFail, err, errCode, cause, sel, zero,
    phaseIs _, phaseIs _, phaseIs _, phaseIs _, phaseIs _, flag kvalid, ?_, flag ddone, flag authOk, flag authFail,
    flag err, codeIs _, codeIs _, codeIs _, codeIs _, codeIs _, codeIs _, ?_, ?_, rfl, rfl, rfl⟩
  · rw [getLsbD_of_extractLsb' dir, dirBit_getLsbD]
  · rw [getLsbD_of_extractLsb' cause, AuthCause.bit_getLsbD]
  · rw [getLsbD_of_extractLsb' sel, rateSel_getLsbD]

/-- Settles O12: the reset values of R36, and `STATUS` of the reset state at each rate. -/
theorem resetValues : Obligations.ResetValues :=
  ⟨rfl, rfl, rfl, rfl, rfl, rfl, rfl, rfl, rfl, rfl, rfl, rfl, rfl, Memory.read_nil, by decide, by decide⟩

end Sys2Proof.Machine

/-! PROOFS. The statements about bytes, the rate region and the hold buffer (spec/20_memory.md): `LOADBYTES` and
`STOREBYTES` (R51, R52), the four region primitives (R54 to R57), what a decryption block stores (R58); and the
step as the meaning of the decoded command (R62, R70). -/

namespace Sys2Proof.Machine

/-! The step. -/

/-- Settles O6: the branch of `step` for a command the decoder accepts. -/
theorem stepRunsTheDecodedCommand : Obligations.StepRunsTheDecodedCommand := by
  intro s c i rest hin hd
  simp only [step, hin, hd]

/-! Bytes and words. -/

/-- Settles O43: the bytes of a stored word, the two round trips, and the example of R52. -/
theorem byteTransfersAreLittleEndian : Obligations.ByteTransfersAreLittleEndian :=
  ⟨fun w n j _ => ⟨storeBytes_length w n, fun hj => by rw [storeBytes_getElem?, if_pos hj]⟩,
    storeBytes_loadBytes, loadBytes_storeBytes, by decide⟩

/-! The rate region. -/

/-- `XORREGION` leaves the region bytes beyond its operand as they were (R55). -/
theorem xorRegion_byte_beyond {bs : List Byte} {s : Sponge} {k : Nat} (hk : k < 16) (h : bs.length ≤ k) :
    regionByte (xorRegion bs s) k = regionByte s k := by
  rw [xorRegion_byte bs s k hk, List.getElem?_eq_none h]
  exact BitVec.xor_zero

/-- Settles O44: each primitive byte by byte, and the three words outside the region. -/
theorem regionPrimitivesActOnTheirBytes : Obligations.RegionPrimitivesActOnTheirBytes := by
  intro cfg bs s n k hbs hk
  refine ⟨?_, replaceRegion_byte bs s k hbs hk, fun hn => padRegion_byte cfg n s k hn hk,
    fun hn => ⟨regionBytes_length s n hn, regionBytes_getElem? s n k hk⟩,
    xorRegion_w2 bs s, xorRegion_w3 bs s, xorRegion_w4 bs s,
    replaceRegion_w2 bs s, replaceRegion_w3 bs s, replaceRegion_w4 bs s,
    padRegion_w2 cfg n s, padRegion_w3 cfg n s, padRegion_w4 cfg n s⟩
  split
  · exact xorRegion_byte bs s k hk
  next hge => exact xorRegion_byte_beyond hk (Nat.le_of_not_lt hge)

/-! What a decryption block stores. -/

/-- Byte `k` of an operand is payload byte `k` (R72). -/
theorem operand_getElem? {din : Lanes 20} {len : BitVec 5} {k : Nat} (hk : k < len.toNat) :
    (operand din len)[k]? = din.val[k]? := by
  simp [operand, dinSlice, hk]

/-- Recovered byte `k` is region byte `k` XOR ciphertext byte `k` (R130, R131). -/
theorem recover_getElem {s : Sponge} {bs : List Byte} {k : Nat} (hbs : bs.length ≤ 16)
    (h : k < (recover s bs).length) : (recover s bs)[k] = regionByte s k ^^^ (bs[k]?).getD 0 := by
  have hk : k < bs.length := recover_length hbs ▸ h
  have hr : (regionBytes bs.length s)[k]? = some (regionByte s k) := by
    rw [regionBytes_getElem? s bs.length k (by omega), if_pos hk]
  obtain ⟨_, hbyte⟩ := List.getElem?_eq_some_iff.mp hr
  simp only [recover, List.getElem_zipWith, hbyte, List.getElem?_eq_getElem hk, Option.getD_some]

/-- `PLEN` after a block that the 32-bit register can count (R14, R32). -/
theorem holdPlaintext_plen_toNat {p : List Byte} {a : Arch} (h : a.plen.toNat + p.length < 2 ^ 32) :
    (holdPlaintext p a).plen.toNat = a.plen.toNat + p.length := by
  rw [holdPlaintext_plen, BitVec.toNat_add, BitVec.toNat_ofNat]
  omega

/-- To the hold buffer and its count `DECBLK` and `DECLAST` do the same: they hold the recovered bytes. -/
theorem effectOf_decryption {i : Instr} {len : BitVec 5} {din : Lanes 20} (cfg : Cfg) (a : Arch)
    (h : i = .decblk len din ∨ i = .declast len din) :
    ∃ e, effectOf cfg i a = some e ∧ e.1.pbuf = (holdPlaintext (recover a.S (operand din len)) a).pbuf ∧
      e.1.plen = (holdPlaintext (recover a.S (operand din len)) a).plen := by
  rcases h with rfl | rfl <;> exact ⟨_, rfl, rfl, rfl⟩

/-- A decryption block that is executed is at most a whole region, and fits the hold buffer (R74, R193). -/
theorem decryption_fits {cfg : Cfg} {i : Instr} {len : BitVec 5} {din : Lanes 20} {a : Arch}
    (h : i = .decblk len din ∨ i = .declast len din) (hv : verdict cfg a i = .execute) :
    len.toNat ≤ 16 ∧ a.plen.toNat + len.toNat ≤ cfg.pbufBytes.val := by
  obtain ⟨-, hlen, -, hfit⟩ := verdict_execute.mp hv
  have hrate := Rate.bytes_le cfg.rate
  rcases h with rfl | rfl
  · simp only [lenLegal, beq_iff_eq] at hlen
    exact ⟨hlen ▸ hrate, of_decide_eq_true hfit⟩
  · simp only [lenLegal, decide_eq_true_eq] at hlen
    exact ⟨by omega, of_decide_eq_true hfit⟩

/-- Settles O28: `MemWrite` of the recovered bytes at `PLEN`, read inside and outside of them. -/
theorem decryptionStoresOnlyItsBlock : Obligations.DecryptionStoresOnlyItsBlock := by
  intro cfg i len din s hwf hi hv
  obtain ⟨hlen, hfit⟩ := decryption_fits hi hv
  obtain ⟨e, he, hpbuf, hplen⟩ := effectOf_decryption cfg s.toArch hi
  have hoperand : (operand din len).length = len.toNat := operand_length (by omega)
  have hblock : (operand din len).length ≤ 16 := hoperand ▸ hlen
  have hrecover : (recover s.S (operand din len)).length = len.toNat := (recover_length hblock).trans hoperand
  refine ⟨s.complete e, execIn_of_execute hv he, fun k hk => ?_, fun k hk => ?_, ?_⟩
  · rw [State.complete_toArch, hpbuf, holdPlaintext_pbuf, memWrite_read_inside hwf (hrecover ▸ hk),
      recover_getElem hblock, operand_getElem? hk]
  · rw [State.complete_toArch, hpbuf, holdPlaintext_pbuf, memWrite_read_outside (hrecover ▸ hk)]
  · have hsize := cfg.pbufBytes.isLt
    rw [State.complete_toArch, hplen, holdPlaintext_plen_toNat (by omega), hrecover]

end Sys2Proof.Machine

/-! PROOFS. The statements about the command encoding (spec/30_encoding.md): decoding and encoding (R71), the
opcode table (R75), the refused headers (R76, R78), and what the port takes and answers (R72, R73). -/

namespace Sys2Proof.Machine

/-! Encoding, then decoding. -/

/-- The row that a command's own fields select is the command (R75). -/
theorem selectRow_fields (i : Instr) : selectRow i.opcode i.dirBit i.len i.payload = some i := by
  cases i with
  | init dir len din =>
    change some (Instr.init (Dir.ofBit dir.bit) len din) = _
    rw [Dir.ofBit_bit]
  | _ => rfl

/-- Only `INIT` sets the direction bit (R71). -/
theorem opcode_of_dirBit {i : Instr} (h : i.dirBit = 1) : i.opcode = 2 := by
  cases i with
  | init dir len din => rfl
  | _ => exact absurd h (by decide : (0 : BitVec 1) ≠ 1)

/-- Settles O1: the encoded header has the command's fields, and those fields select the command. -/
theorem decodeInvertsEncode : Obligations.DecodeInvertsEncode := by
  intro i
  have hdir : ¬(i.dirBit = 1 ∧ i.opcode ≠ 2) := fun ⟨hd, ho⟩ => ho (opcode_of_dirBit hd)
  simp only [decode, encode, rsvField_headerOf, opField_headerOf, dirField_headerOf, lenField_headerOf,
    selectRow_fields, ne_eq, not_true_eq_false, if_false]
  exact if_neg hdir

/-- Settles O2: the header by `decode_ok_header`, the payload by the row that was selected. -/
theorem encodeInvertsDecode : Obligations.EncodeInvertsDecode := by
  intro c i h
  obtain ⟨-, -, -, -, -, -, hpayload⟩ := decode_ok h
  exact ⟨decode_ok_header h, hpayload⟩

/-! The opcode table. -/

/-- The table has one row for the opcode of a command, and it carries the command's name (R75). -/
theorem opTable_row (i : Instr) :
    (opTable.filter fun r => opField r.value == i.opcode).map OpRow.mnemonic = [i.mnemonic] := by
  cases i <;> rfl

/-- The table has no row for a reserved opcode (R75, R76). -/
theorem opTable_no_row {op : BitVec 4} (h : 13 ≤ op.toNat) :
    opTable.filter (fun r => opField r.value == op) = [] := by
  have hrows : ∀ r ∈ opTable, (opField r.value).toNat < 13 := by decide
  refine List.filter_eq_nil_iff.mpr fun r hr heq => ?_
  have hlt := hrows r hr
  rw [beq_iff_eq.mp heq] at hlt
  omega

/-- A header whose direction bit is legal has it clear, or is an `INIT` header (R77). -/
theorem dirField_zero_or {h : BitVec 16} (hd : dirField h = 1 → opField h = 2) : dirField h = 0 ∨ opField h = 2 := by
  have hbit : ∀ b : BitVec 1, b = 0 ∨ b = 1 := by decide
  exact (hbit _).imp_right hd

/-- Settles O3: a header selects the rows of its opcode, or none where a check on its fields fails. -/
theorem decoderSelectsTheTableRow : Obligations.DecoderSelectsTheTableRow := by
  intro c
  refine ⟨fun i h => ?_, fun e h => ?_⟩
  · obtain ⟨hrsv, -, hdir, hop, -, -, -⟩ := decode_ok h
    rw [selectedBy_eq, if_pos ⟨dirField_zero_or hdir, hrsv⟩, ← hop]
    exact opTable_row i
  · rw [selectedBy_eq]
    rcases decode_error h with ⟨hrsv, -⟩ | ⟨-, hop, -⟩ | ⟨-, -, hdir, hop, -⟩
    · exact if_neg fun hx => hrsv hx.2
    · rw [opTable_no_row hop, ite_self]
    · refine if_neg fun hx => hx.1.elim (fun h0 => ?_) hop
      exact absurd (hdir.symm.trans h0) (by decide)

/-! Classification (R78). -/

theorem classify_of_error {rate : Rate} {c : Command} {e : FaultCode} (h : decode c = .error e) :
    classify rate c = .error e := by
  rw [classify, h]

theorem classify_of_ok {rate : Rate} {c : Command} {i : Instr} (h : decode c = .ok i) :
    classify rate c = if lenLegal rate i then .ok i else .error .badLen := by
  rw [classify, h]

/-- The lengths that are legal for a decoded command, by the fields of its header (R74). -/
theorem lenLegal_decoded {rate : Rate} {c : Command} {i : Instr} (h : decode c = .ok i) :
    lenLegal rate i = true ↔ legalLength rate.bytes (opField c.header).toNat (lenField c.header).toNat := by
  obtain ⟨-, -, -, hop, hlen, -, -⟩ := decode_ok h
  rw [lenLegal_iff, hop, hlen]

/-- A decoded command with a legal length is classified as itself. -/
theorem classify_of_legal {rate : Rate} {c : Command} {i : Instr} (h : decode c = .ok i)
    (hl : legalLength rate.bytes (opField c.header).toNat (lenField c.header).toNat) : classify rate c = .ok i := by
  rw [classify_of_ok h, if_pos ((lenLegal_decoded h).mpr hl)]

/-- A decoded command with any other length is `BAD_LEN`. -/
theorem classify_of_illegal {rate : Rate} {c : Command} {i : Instr} (h : decode c = .ok i)
    (hl : ¬legalLength rate.bytes (opField c.header).toNat (lenField c.header).toNat) :
    classify rate c = .error .badLen := by
  rw [classify_of_ok h, if_neg (mt (lenLegal_decoded h).mp hl)]

/-- Every command is classified as the command it decodes to, with a legal length, or as one of three codes. -/
theorem classify_total (rate : Rate) (c : Command) :
    (∃ i, classify rate c = .ok i ∧ i.len = lenField c.header ∧ i.opcode = opField c.header ∧
        legalLength rate.bytes (opField c.header).toNat (lenField c.header).toNat) ∨
      classify rate c = .error .reservedBits ∨ classify rate c = .error .illegalOp ∨
      classify rate c = .error .badLen := by
  cases h : decode c with
  | error e =>
    rw [classify_of_error h]
    rcases decode_error h with ⟨-, rfl⟩ | ⟨-, -, rfl⟩ | ⟨-, -, -, -, rfl⟩
    · exact .inr (.inl rfl)
    · exact .inr (.inr (.inl rfl))
    · exact .inr (.inl rfl)
  | ok i =>
    obtain ⟨-, -, -, hop, hlen, -, -⟩ := decode_ok h
    by_cases hl : legalLength rate.bytes (opField c.header).toNat (lenField c.header).toNat
    · exact .inl ⟨i, classify_of_legal h hl, hlen, hop, hl⟩
    · exact .inr (.inr (.inr (classify_of_illegal h hl)))

/-- A refusal depends on the header and the rate only. -/
theorem classify_error_of_header {rate : Rate} {c c' : Command} {e : FaultCode} (h : c'.header = c.header)
    (hc : classify rate c = .error e) : classify rate c' = .error e := by
  rcases decode_same_header h with ⟨f, hf', hf⟩ | ⟨i', i, hi', hi, hop, hlen, -⟩
  · rwa [classify_of_error hf', ← classify_of_error hf]
  · rw [classify_of_ok hi] at hc
    rw [classify_of_ok hi', lenLegal_congr rate hop hlen]
    split at hc
    · cases hc
    next hl => rwa [if_neg hl]

/-- Settles O4: the decoder's refusals in their order, then the length of the command it gives. -/
theorem decodingIsTotalOverHeaders : Obligations.DecodingIsTotalOverHeaders := by
  intro rate c h op len
  have opIs : op = 2 ↔ opField h = 2 := BitVec.toNat_inj (y := 2#4)
  refine ⟨fun hr => classify_of_error (decode_reserved hr), fun hr ho => classify_of_error (decode_illegal hr ho),
    fun hr ho hd h2 => classify_of_error (decode_direction hr ho hd (mt opIs.mpr h2)), fun hr ho hd hl => ?_,
    fun hr ho hd hl => ?_, classify_total rate c, fun c' e hc' => classify_error_of_header hc'⟩
  · obtain ⟨i, hi⟩ := decode_total hr ho fun h1 => opIs.mp (hd h1)
    exact classify_of_illegal hi hl
  · obtain ⟨i, hi⟩ := decode_total hr ho fun h1 => opIs.mp (hd h1)
    obtain ⟨-, -, -, hop, hlen, hdir, -⟩ := decode_ok hi
    exact ⟨i, classify_of_legal hi hl, hi, hop, hlen, hdir⟩

/-- Settles O5: nine closed header words. -/
theorem sampleHeadersDecode : Obligations.SampleHeadersDecode := by
  unfold Obligations.SampleHeadersDecode
  decide

/-! The port: one command taken, one response given (R73, R190). -/

/-- A meaning takes nothing from the port. -/
theorem execIn_inbox {cfg : Cfg} {i : Instr} {s t : State} (h : execIn cfg i s = .next t) : t.inbox = s.inbox := by
  rcases execIn_next h with ⟨-, rfl⟩ | ⟨c, -, rfl⟩ | ⟨-, e, -, rfl⟩ <;> rfl

/-- Nor does a refused header. -/
theorem rejectHeader_inbox (c : FaultCode) (s : State) : (s.rejectHeader c).inbox = s.inbox := by
  unfold State.rejectHeader
  split <;> rfl

/-- Settles O11: a refused header or a meaning, each of which adds its one response to the outbox. -/
theorem oneResponsePerCommand : Obligations.OneResponsePerCommand := by
  intro s t c rest hin h
  rcases stepIn_next (step_eq s ▸ h) with ⟨hin', -⟩ | ⟨rest', hin', -⟩ | ⟨c', rest', e, hin', -, rfl⟩ |
    ⟨c', rest', i, hin', -, hx⟩ <;> cases hin.symm.trans hin'
  · obtain ⟨r, hr, hout⟩ := rejectHeader_outbox e { s with inbox := rest }
    exact ⟨rejectHeader_inbox e _, r, hout, hr⟩
  · obtain ⟨r, hr, hout⟩ := execIn_outbox hx
    exact ⟨execIn_inbox hx, r, hout, hr⟩

/-! Payload lanes that are not read (R72). -/

/-- The opcodes of `STAT`, `FINENC`, `RDPT` and `SCRUB`, which read no payload (R72). -/
def ReadsNone (op : BitVec 4) : Prop := op = 0x0 ∨ op = 0x9 ∨ op = 0xB ∨ op = 0xC

/-- The four commands that read no payload carry none. -/
theorem payload_eq_zero {i : Instr} (h : ReadsNone i.opcode) : i.payload = Lanes.zero20 := by
  cases i with
  | stat | finenc | rdpt | scrub => rfl
  | _ => simp [ReadsNone, Instr.opcode] at h

/-- The lanes a command reads, where those of its header's `LEN` agree or its opcode reads none. -/
theorem decoded_payload_take {c c' : Command} {i i' : Instr} (h : c.header = c'.header) (hi : decode c = .ok i)
    (hi' : decode c' = .ok i')
    (hread : c.din.val.take (lenField c.header).toNat = c'.din.val.take (lenField c.header).toNat ∨
      ReadsNone (opField c.header)) :
    i.payload.val.take i.len.toNat = i'.payload.val.take i.len.toNat := by
  obtain ⟨-, -, -, hop, hlen, -, hpay⟩ := decode_ok hi
  obtain ⟨-, -, -, hop', -, -, hpay'⟩ := decode_ok hi'
  by_cases hnone : ReadsNone (opField c.header)
  · rw [payload_eq_zero (hop ▸ hnone), payload_eq_zero (hop' ▸ h ▸ hnone)]
  · have htake := hread.resolve_right hnone
    simp only [ReadsNone, not_or] at hnone
    obtain ⟨h0, h9, hB, hC⟩ := hnone
    rw [hpay h0 h9 hB hC, hpay' (h ▸ h0) (h ▸ h9) (h ▸ hB) (h ▸ hC), hlen, htake]

/-- A meaning reads the operand lanes only: the checks read none, and an effect follows a legal length. -/
theorem execIn_operand (cfg : Cfg) (s : State) {i i' : Instr} (ho : i.opcode = i'.opcode) (hl : i.len = i'.len)
    (hd : i.dirBit = i'.dirBit) (hp : i.payload.val.take i.len.toNat = i'.payload.val.take i.len.toNat) :
    execIn cfg i s = execIn cfg i' s := by
  have hv : verdict cfg s.toArch i = verdict cfg s.toArch i' := verdict_public rfl ho hl hd
  rw [execIn_eq, execIn_eq, runReading, runReading, ← hv]
  cases hx : verdict cfg s.toArch i with
  | refuse => rfl
  | fault c => rfl
  | execute =>
    obtain ⟨-, hlegal, -, -⟩ := verdict_execute.mp hx
    simp only [effectOf_operand cfg s.toArch ho hl hd hlegal hp]

/-- Settles O36: commands with the same header are refused alike, or run the same row on the same operand. -/
theorem unusedPayloadIsIgnored : Obligations.UnusedPayloadIsIgnored := by
  intro s c c' rest h hread
  rcases decode_same_header h with ⟨e, he, he'⟩ | ⟨i, i', hi, hi', hop, hlen, hdir⟩
  · simp only [step, he, he']
  · simp only [step, hi, hi', exec_eq]
    exact execIn_operand Config.cfg _ hop hlen hdir (decoded_payload_take h hi hi' hread)

end Sys2Proof.Machine


/-! PROOFS. The statement about the key schedule (spec/40_key_schedule.md): what `LDKEY` loads, and where it
faults (R90, R91). -/

namespace Sys2Proof.Machine

/-- A slice of a slice of the payload is a slice of the payload (R72). -/
theorem dinSlice_slice (din : Lanes 20) {start m k n : Nat} (h : k + n ≤ m) :
    ((dinSlice din start m).drop k).take n = dinSlice din (start + k) n := by
  have hn : n ≤ m - k := by omega
  rw [dinSlice, List.drop_take, List.take_take, Nat.min_eq_left hn, List.drop_drop, dinSlice]

/-- The three key words by the payload bytes each is loaded from (R91). -/
theorem loadKey_dinSlice (cfg : Cfg) (din : Lanes 20) :
    loadKey cfg (dinSlice din 0 20) = ⟨cfg.keyrot 0 (loadBytes (dinSlice din 0 4)),
      loadBytes (dinSlice din 4 8), loadBytes (dinSlice din 12 8)⟩ := by
  have h0 : (dinSlice din 0 20).take 4 = dinSlice din 0 4 := dinSlice_slice din (k := 0) (by decide)
  have h1 : ((dinSlice din 0 20).drop 4).take 8 = dinSlice din 4 8 := dinSlice_slice din (by decide)
  have h2 : ((dinSlice din 0 20).drop 12).take 8 = dinSlice din 12 8 := dinSlice_slice din (by decide)
  rw [loadKey, h0, h1, h2]

/-- The one length of `LDKEY` (R74). -/
theorem lenLegal_ldkey {rate : Rate} {len : BitVec 5} {din : Lanes 20} :
    lenLegal rate (.ldkey len din) = true ↔ len = 20 := by
  simp [lenLegal, ← BitVec.toNat_inj]

/-- When `LDKEY` is accepted (R25). -/
theorem acceptedNow_ldkey {a : Arch} {len : BitVec 5} {din : Lanes 20} :
    acceptedNow a (.ldkey len din) = true ↔ a.phase = .uninitialized ∧ a.kvalid = false := by
  simp [acceptedNow]

/-- The one header of a legal `LDKEY` (R90), whatever its payload. -/
theorem header_ldkey (din : Lanes 20) : (encode (.ldkey 20 din)).header = 0x0141 := by
  change headerOf 0x1 20 0 = 0x0141
  decide

/-- Settles O15: the length and the acceptance of `LDKEY` are its two checks, and its effect loads the three
words. -/
theorem ldkeyLoadsTheKey : Obligations.LdkeyLoadsTheKey := by
  intro len din s herr
  refine ⟨header_ldkey din, fun hlen => ?_, fun hlen hphase => ?_, fun hlen hphase hkey => ?_⟩
  · exact exec_badLen herr (Bool.eq_false_iff.mpr (mt lenLegal_ldkey.mp hlen))
  · have hrejected : ¬(s.phase = .uninitialized ∧ s.kvalid = false) := fun ⟨hp, hk⟩ =>
      hphase.elim (· hp) fun hk' => Bool.false_ne_true (hk.symm.trans hk')
    rw [exec_eq]
    exact execIn_badPhase herr (lenLegal_ldkey.mpr hlen) (Bool.eq_false_iff.mpr (mt acceptedNow_ldkey.mp hrejected))
  · rw [exec_eq, execIn_ok herr (lenLegal_ldkey.mpr hlen) (acceptedNow_ldkey.mpr ⟨hphase, hkey⟩) rfl rfl,
      ldkeyEffect, loadKey_dinSlice]
    rfl

end Sys2Proof.Machine

/-! PROOFS. The statement about initialization (spec/41_initialization.md): what `INIT` writes in each direction,
and where it faults (R100, R101). -/

namespace Sys2Proof.Machine

/-- The seed by the payload bytes its two nonce words are loaded from (R100). -/
theorem seed_dinSlice (cfg : Cfg) (k : KeyFile) (din : Lanes 20) :
    seed cfg k (dinSlice din 0 16) = ⟨k.k0 ^^^ cfg.iv, k.k1, k.k2, loadBytes (dinSlice din 0 8),
      loadBytes (dinSlice din 8 8)⟩ := by
  have h0 : (dinSlice din 0 16).take 8 = dinSlice din 0 8 := dinSlice_slice din (k := 0) (by decide)
  have h1 : ((dinSlice din 0 16).drop 8).take 8 = dinSlice din 8 8 := dinSlice_slice din (by decide)
  rw [seed, h0, h1]

/-- `Initialize` word by word, from the permuted seed (R101). -/
theorem initSponge_eq (cfg : Cfg) (k : KeyFile) (nonce : List Byte) :
    let t := cfg.perm (seed cfg k nonce) 12
    initSponge cfg k nonce = ⟨t.w0, t.w1, t.w2 ^^^ k.k0, t.w3 ^^^ k.k1, t.w4 ^^^ k.k2⟩ := by
  rw [initSponge, permute_eq]
  rfl

/-- The one length of `INIT` (R74). -/
theorem lenLegal_init {rate : Rate} {dir : Dir} {len : BitVec 5} {din : Lanes 20} :
    lenLegal rate (.init dir len din) = true ↔ len = 16 := by
  simp [lenLegal, ← BitVec.toNat_inj]

/-- When `INIT` is accepted (R25). -/
theorem acceptedNow_init {a : Arch} {dir : Dir} {len : BitVec 5} {din : Lanes 20} :
    acceptedNow a (.init dir len din) = true ↔ a.phase = .uninitialized ∧ a.kvalid = true := by
  simp [acceptedNow]

/-- The header of a legal `INIT` in each direction (R100), whatever its payload. -/
theorem header_init (din : Lanes 20) :
    (encode (.init .enc 16 din)).header = 0x0102 ∧ (encode (.init .dec 16 din)).header = 0x0302 := by
  change headerOf 0x2 16 0 = 0x0102 ∧ headerOf 0x2 16 1 = 0x0302
  decide

/-- Settles O16: the length and the acceptance of `INIT` are its two checks, and its effect loads `Initialize` of
the key and the nonce, whatever the direction it writes. -/
theorem initSeedsTheState : Obligations.InitSeedsTheState := by
  intro dir len din s herr
  obtain ⟨henc, hdec⟩ := header_init din
  refine ⟨henc, hdec, fun hlen => ?_, fun hlen hrejected => ?_, fun hlen hphase hkey => ?_⟩
  · exact exec_badLen herr (Bool.eq_false_iff.mpr (mt lenLegal_init.mp hlen))
  · have hnot : ¬(s.phase = .uninitialized ∧ s.kvalid = true) := by
      rwa [not_and_or, Bool.not_eq_true]
    rw [exec_eq]
    exact execIn_badPhase herr (lenLegal_init.mpr hlen) (Bool.eq_false_iff.mpr (mt acceptedNow_init.mp hnot))
  · rw [exec_eq, execIn_ok herr (lenLegal_init.mpr hlen) (acceptedNow_init.mpr ⟨hphase, hkey⟩) rfl rfl,
      initEffect, initSponge_eq, seed_dinSlice]
    rfl

end Sys2Proof.Machine

/-! PROOFS. The statements about the absorption of associated data (spec/42_ad_absorption.md): what `ADBLK` and
`ADLAST` write, and where they fault (R110, R111, R112). -/

namespace Sys2Proof.Machine

/-- A block absorbed, with `PERM` called directly (R110). -/
theorem absorbBlock_eq (cfg : Cfg) (s : Sponge) (b : List Byte) :
    absorbBlock cfg s b = cfg.perm (xorRegion b s) cfg.rate.roundsB := by
  rw [absorbBlock, permute_eq]

/-- The last block absorbed, with `PERM` called directly and the separation bit written out (R111, R112). -/
theorem absorbLast_eq (cfg : Cfg) (s : Sponge) (b : List Byte) :
    let p := cfg.perm (padRegion cfg b.length (xorRegion b s)) cfg.rate.roundsB
    absorbLast cfg s b = setWord p cfg.dsepWord (wordAt p cfg.dsepWord ^^^ ((1 : W64) <<< cfg.dsepBit.val)) := by
  rw [absorbLast, permute_eq]
  rfl

/-- The one length of `ADBLK` (R74). -/
theorem lenLegal_adblk {rate : Rate} {len : BitVec 5} {din : Lanes 20} :
    lenLegal rate (.adblk len din) = true ↔ len.toNat = rate.bytes := by
  simp [lenLegal]

/-- The lengths of `ADLAST` (R74). -/
theorem lenLegal_adlast {rate : Rate} {len : BitVec 5} {din : Lanes 20} :
    lenLegal rate (.adlast len din) = true ↔ len.toNat < rate.bytes := by
  simp [lenLegal]

/-- When `ADBLK` is accepted (R25). -/
theorem acceptedNow_adblk {a : Arch} {len : BitVec 5} {din : Lanes 20} :
    acceptedNow a (.adblk len din) = true ↔ a.phase = .initialized ∨ a.phase = .absorbingAD := by
  simp [acceptedNow]

/-- When `ADLAST` is accepted (R25). -/
theorem acceptedNow_adlast {a : Arch} {len : BitVec 5} {din : Lanes 20} :
    acceptedNow a (.adlast len din) = true ↔ a.phase = .initialized ∨ a.phase = .absorbingAD := by
  simp [acceptedNow]

/-- The header of a legal `ADBLK` at each rate (R110), whatever its payload. -/
theorem header_adblk (din : Lanes 20) :
    (encode (.adblk 8 din)).header = 0x0083 ∧ (encode (.adblk 16 din)).header = 0x0103 := by
  change headerOf 0x3 8 0 = 0x0083 ∧ headerOf 0x3 16 0 = 0x0103
  decide

/-- The header of `ADLAST` (R111): its `LEN` field is the only part that varies. -/
theorem header_adlast (len : BitVec 5) (din : Lanes 20) :
    (encode (.adlast len din)).header = 0x0004 ||| (len.setWidth 16 <<< 4) := by
  change headerOf 0x4 len 0 = _
  simp [headerOf]

/-- Settles O17: the length and the phase are the two checks of `ADBLK`, and its effect absorbs the block. -/
theorem adblkAbsorbsABlock : Obligations.AdblkAbsorbsABlock := by
  intro len din s herr
  obtain ⟨h8, h16⟩ := header_adblk din
  refine ⟨h8, h16, fun hlen => ?_, fun hlen hinit had => ?_, fun hlen hphase => ?_⟩
  · exact exec_badLen herr (Bool.eq_false_iff.mpr (mt lenLegal_adblk.mp hlen))
  · rw [exec_eq]
    exact execIn_badPhase herr (lenLegal_adblk.mpr hlen)
      (Bool.eq_false_iff.mpr (mt acceptedNow_adblk.mp (not_or.mpr ⟨hinit, had⟩)))
  · rw [exec_eq, execIn_ok herr (lenLegal_adblk.mpr hlen) (acceptedNow_adblk.mpr hphase) rfl rfl,
      adblkEffect, absorbBlock_eq, operand, hlen]
    rfl

/-- Settles O18: the length and the phase are the two checks of `ADLAST`, and its effect absorbs the `LEN` bytes
of its operand, pads after them and separates the domains. -/
theorem adlastPadsAndSeparates : Obligations.AdlastPadsAndSeparates := by
  intro len din s herr
  refine ⟨header_adlast len din, fun hlen => ?_, fun hlen hinit had => ?_, fun hlen hphase => ?_⟩
  · exact exec_badLen herr (Bool.eq_false_iff.mpr (mt lenLegal_adlast.mp (Nat.not_lt.mpr hlen)))
  · rw [exec_eq]
    exact execIn_badPhase herr (lenLegal_adlast.mpr hlen)
      (Bool.eq_false_iff.mpr (mt acceptedNow_adlast.mp (not_or.mpr ⟨hinit, had⟩)))
  · have hn : (operand din len).length = len.toNat :=
      operand_length (by have := Rate.bytes_le Config.rate; omega)
    rw [exec_eq, execIn_ok herr (lenLegal_adlast.mpr hlen) (acceptedNow_adlast.mpr hphase) rfl rfl,
      adlastEffect, absorbLast_eq, hn]
    rfl

end Sys2Proof.Machine

/-! PROOFS. The statements about the encryption of the plaintext (spec/43_encrypt_pipeline.md): what `ENCBLK` and
`ENCLAST` write and answer, and where they fault (R120, R121). -/

namespace Sys2Proof.Machine

/-- The response that carries the first `len` bytes of the rate region (R73): its `DOUT_LEN` is `len`. -/
theorem okResponse_regionBytes {len : BitVec 5} (h : len.toNat ≤ 16) (s : Sponge) :
    okResponse (regionBytes len.toNat s) = ⟨.ok, len, lanes16 (regionBytes len.toNat s)⟩ := by
  rw [okResponse, regionBytes_length s _ h, BitVec.ofNat_toNat, BitVec.setWidth_eq]

/-- The effect of `ENCBLK` (R120): the bytes answered are those of the state before `PERM`. -/
theorem encblkEffect_eq (cfg : Cfg) {len : BitVec 5} (h : len.toNat ≤ 16) (din : Lanes 20) (a : Arch) :
    let x := xorRegion (operand din len) a.S
    encblkEffect cfg len din a = ({ a with S := cfg.perm x cfg.rate.roundsB },
      ⟨.ok, len, lanes16 (regionBytes len.toNat x)⟩) := by
  have hn : (operand din len).length = len.toNat := operand_length (by omega)
  simp only [encblkEffect, encryptBlock, permute_eq, hn, okResponse_regionBytes h]

/-- The effect of `ENCLAST` (R121): the bytes answered are those of the state it leaves. -/
theorem enclastEffect_eq (cfg : Cfg) {len : BitVec 5} (h : len.toNat ≤ 16) (din : Lanes 20) (a : Arch) :
    let x := padRegion cfg len.toNat (xorRegion (operand din len) a.S)
    enclastEffect cfg len din a = ({ a with S := x, ddone := true },
      ⟨.ok, len, lanes16 (regionBytes len.toNat x)⟩) := by
  have hn : (operand din len).length = len.toNat := operand_length (by omega)
  simp only [enclastEffect, encryptLast, hn, okResponse_regionBytes h]

/-- The one length of `ENCBLK` (R74). -/
theorem lenLegal_encblk {rate : Rate} {len : BitVec 5} {din : Lanes 20} :
    lenLegal rate (.encblk len din) = true ↔ len.toNat = rate.bytes := by
  simp [lenLegal]

/-- The lengths of `ENCLAST` (R74). -/
theorem lenLegal_enclast {rate : Rate} {len : BitVec 5} {din : Lanes 20} :
    lenLegal rate (.enclast len din) = true ↔ len.toNat < rate.bytes := by
  simp [lenLegal]

/-- When `ENCBLK` is accepted (R25). -/
theorem acceptedNow_encblk {a : Arch} {len : BitVec 5} {din : Lanes 20} :
    acceptedNow a (.encblk len din) = true ↔ a.phase = .processing ∧ a.ddone = false ∧ a.dir = .enc := by
  simp [acceptedNow, and_assoc]

/-- When `ENCLAST` is accepted (R25). -/
theorem acceptedNow_enclast {a : Arch} {len : BitVec 5} {din : Lanes 20} :
    acceptedNow a (.enclast len din) = true ↔ a.phase = .processing ∧ a.ddone = false ∧ a.dir = .enc := by
  simp [acceptedNow, and_assoc]

/-- The header of a legal `ENCBLK` at each rate (R120), whatever its payload. -/
theorem header_encblk (din : Lanes 20) :
    (encode (.encblk 8 din)).header = 0x0085 ∧ (encode (.encblk 16 din)).header = 0x0105 := by
  change headerOf 0x5 8 0 = 0x0085 ∧ headerOf 0x5 16 0 = 0x0105
  decide

/-- The header of `ENCLAST` (R121): its `LEN` field is the only part that varies. -/
theorem header_enclast (len : BitVec 5) (din : Lanes 20) :
    (encode (.enclast len din)).header = 0x0006 ||| (len.setWidth 16 <<< 4) := by
  change headerOf 0x6 len 0 = _
  simp [headerOf]

/-- Settles O19: the length and the data phase of an encryption are the two checks of `ENCBLK`, and its effect
answers the region between the exclusive-or and `PERM`. -/
theorem encblkEncryptsABlock : Obligations.EncblkEncryptsABlock := by
  intro len din s herr
  obtain ⟨h8, h16⟩ := header_encblk din
  refine ⟨h8, h16, fun hlen => ?_, fun hlen hrejected => ?_, fun hlen hphase hddone hdir => ?_⟩
  · exact exec_badLen herr (Bool.eq_false_iff.mpr (mt lenLegal_encblk.mp hlen))
  · rw [exec_eq]
    exact execIn_badPhase herr (lenLegal_encblk.mpr hlen)
      (Bool.eq_false_iff.mpr (mt acceptedNow_encblk.mp hrejected))
  · have hle : len.toNat ≤ 16 := hlen.trans_le (Rate.bytes_le Config.rate)
    have hcount : BitVec.ofNat 5 Config.rate.bytes = len := by rw [← hlen, BitVec.ofNat_toNat, BitVec.setWidth_eq]
    rw [exec_eq, execIn_ok herr (lenLegal_encblk.mpr hlen) (acceptedNow_encblk.mpr ⟨hphase, hddone, hdir⟩) rfl rfl,
      encblkEffect_eq _ hle, operand, hcount, hlen]
    rfl

/-- Settles O20: the length and the data phase of an encryption are the two checks of `ENCLAST`, and its effect
pads after the `LEN` bytes, answers those bytes and closes the data phase. -/
theorem enclastEncryptsTheLastBlock : Obligations.EnclastEncryptsTheLastBlock := by
  intro len din s herr
  refine ⟨header_enclast len din, fun hlen => ?_, fun hlen hrejected => ?_, fun hlen hphase hddone hdir => ?_⟩
  · exact exec_badLen herr (Bool.eq_false_iff.mpr (mt lenLegal_enclast.mp (Nat.not_lt.mpr hlen)))
  · rw [exec_eq]
    exact execIn_badPhase herr (lenLegal_enclast.mpr hlen)
      (Bool.eq_false_iff.mpr (mt acceptedNow_enclast.mp hrejected))
  · have hle : len.toNat ≤ 16 := hlen.le.trans (Rate.bytes_le Config.rate)
    rw [exec_eq, execIn_ok herr (lenLegal_enclast.mpr hlen) (acceptedNow_enclast.mpr ⟨hphase, hddone, hdir⟩) rfl rfl,
      enclastEffect_eq _ hle]
    rfl

end Sys2Proof.Machine

/-! PROOFS. The statements about the decryption of the ciphertext (spec/44_decrypt_pipeline.md): what `DECBLK` and
`DECLAST` write and hold, where they fault (R130, R131), and that they undo the encryption of a block (R133). -/

namespace Sys2Proof.Machine

/-! The ciphertext of a block, and what decryption makes of it (R133). -/

/-- Byte `k` of `REGIONBYTES` is region byte `k` (R57). -/
theorem regionBytes_getElem {s : Sponge} {n k : Nat} (hn : n ≤ 16) (h : k < (regionBytes n s).length) :
    (regionBytes n s)[k] = regionByte s k := by
  have hk : k < n := regionBytes_length s n hn ▸ h
  obtain ⟨_, hbyte⟩ := List.getElem?_eq_some_iff.mp
    ((regionBytes_getElem? s n k (by omega)).trans (if_pos hk))
  exact hbyte

/-- The padding marker of `n` bytes stands beyond them (R56). -/
theorem regionBytes_padRegion (cfg : Cfg) {n : Nat} (hn : n < 16) (s : Sponge) :
    regionBytes n (padRegion cfg n s) = regionBytes n s := by
  refine List.ext_getElem (by rw [regionBytes_length _ _ hn.le, regionBytes_length _ _ hn.le]) fun k h _ => ?_
  have hk : k < n := regionBytes_length _ n hn.le ▸ h
  rw [regionBytes_getElem hn.le, regionBytes_getElem hn.le, padRegion_byte cfg n s k hn (by omega), if_neg hk.ne]

section
variable {s : Sponge} {b : List Byte} (hb : b.length ≤ 16)
include hb

/-- Replacing the region bytes by the ciphertext does what the exclusive-or with the plaintext did: below the
block's length the byte is the ciphertext byte, and beyond it neither writes. -/
theorem replaceRegion_regionBytes_xorRegion :
    replaceRegion (regionBytes b.length (xorRegion b s)) s = xorRegion b s := by
  have hlen := regionBytes_length (xorRegion b s) b.length hb
  refine sponge_ext (fun k hk => ?_) (by simp) (by simp) (by simp)
  rw [replaceRegion_byte _ s k (hlen.trans_le hb) hk, hlen]
  split
  next hlt => rw [regionBytes_getElem? _ _ _ hk, if_pos hlt, Option.getD_some]
  next hge => exact (xorRegion_byte_beyond hk (Nat.le_of_not_lt hge)).symm

/-- A region byte cancels against the ciphertext byte made of it, which leaves the plaintext byte. -/
theorem recover_regionBytes_xorRegion : recover s (regionBytes b.length (xorRegion b s)) = b := by
  have hlen := regionBytes_length (xorRegion b s) b.length hb
  have hrec := recover_length (s := s) (hlen.trans_le hb)
  refine List.ext_getElem (hrec.trans hlen) fun k hk hkb => ?_
  have hk16 : k < 16 := by omega
  rw [recover_getElem (hlen.trans_le hb) hk, regionBytes_getElem? _ _ _ hk16, if_pos hkb, Option.getD_some,
    xorRegion_byte b s k hk16, List.getElem?_eq_getElem hkb, Option.getD_some, ← BitVec.xor_assoc, BitVec.xor_self,
    BitVec.zero_xor]

/-- A block decrypted is the block encrypted, with the same permutation of the same state (R133). -/
theorem decryptBlock_encryptBlock (cfg : Cfg) :
    decryptBlock cfg s (encryptBlock cfg s b).2 = ((encryptBlock cfg s b).1, b) := by
  simp only [encryptBlock, decryptBlock, replaceRegion_regionBytes_xorRegion hb, recover_regionBytes_xorRegion hb]

end

/-- A last block decrypted is the last block encrypted, with the marker at the same byte (R133). -/
theorem decryptLast_encryptLast (cfg : Cfg) {s : Sponge} {b : List Byte} (hb : b.length < 16) :
    decryptLast cfg s (encryptLast cfg s b).2 = ((encryptLast cfg s b).1, b) := by
  simp only [encryptLast, decryptLast, regionBytes_padRegion cfg hb, regionBytes_length _ _ hb.le,
    replaceRegion_regionBytes_xorRegion hb.le, recover_regionBytes_xorRegion hb.le]

/-- Settles O46: a block of either kind fits the region. -/
theorem decryptionMirrorsEncryption : Obligations.DecryptionMirrorsEncryption :=
  fun cfg _ _ => ⟨fun hb => decryptBlock_encryptBlock (hb.trans_le (Rate.bytes_le cfg.rate)) cfg,
    fun hb => decryptLast_encryptLast cfg (hb.trans_le (Rate.bytes_le cfg.rate))⟩

/-! What the two commands write. -/

/-- The recovered block in the hold buffer, by the length of the ciphertext (R130, R131). -/
theorem holdPlaintext_recover {c : List Byte} {n : Nat} (hc : c.length = n) (hn : n ≤ 16) (a : Arch) :
    holdPlaintext (recover a.S c) a = { a with
      pbuf := memWrite a.pbuf a.plen.toNat (List.zipWith (fun x y => x ^^^ y) (regionBytes n a.S) c)
      plen := a.plen + BitVec.ofNat 32 n } := by
  subst hc
  rw [holdPlaintext, recover_length hn, recover]

/-- The effect of `DECBLK` (R130), with `PERM` called directly. -/
theorem decblkEffect_eq (cfg : Cfg) {len : BitVec 5} (h : len.toNat ≤ 16) (din : Lanes 20) (a : Arch) :
    let c := operand din len
    decblkEffect cfg len din a = ({ a with
      S := cfg.perm (replaceRegion c a.S) cfg.rate.roundsB
      pbuf := memWrite a.pbuf a.plen.toNat (List.zipWith (fun x y => x ^^^ y) (regionBytes len.toNat a.S) c)
      plen := a.plen + BitVec.ofNat 32 len.toNat }, okResponse []) := by
  have hc : (operand din len).length = len.toNat := operand_length (by omega)
  simp only [decblkEffect, decryptBlock, permute_eq, holdPlaintext_recover hc h]

/-- The effect of `DECLAST` (R131): the marker follows the `LEN` replaced bytes. -/
theorem declastEffect_eq (cfg : Cfg) {len : BitVec 5} (h : len.toNat ≤ 16) (din : Lanes 20) (a : Arch) :
    let c := operand din len
    declastEffect cfg len din a = ({ a with
      S := padRegion cfg len.toNat (replaceRegion c a.S)
      ddone := true
      pbuf := memWrite a.pbuf a.plen.toNat (List.zipWith (fun x y => x ^^^ y) (regionBytes len.toNat a.S) c)
      plen := a.plen + BitVec.ofNat 32 len.toNat }, okResponse []) := by
  have hc : (operand din len).length = len.toNat := operand_length (by omega)
  simp only [declastEffect, decryptLast, hc, holdPlaintext_recover hc h]

/-! Their headers and their checks. -/

/-- The header of a legal `DECBLK` at each rate (R130), whatever its payload. -/
theorem header_decblk (din : Lanes 20) :
    (encode (.decblk 8 din)).header = 0x0087 ∧ (encode (.decblk 16 din)).header = 0x0107 := by
  change headerOf 0x7 8 0 = 0x0087 ∧ headerOf 0x7 16 0 = 0x0107
  decide

/-- The header of `DECLAST` (R131): its `LEN` field is the only part that varies. -/
theorem header_declast (len : BitVec 5) (din : Lanes 20) :
    (encode (.declast len din)).header = 0x0008 ||| (len.setWidth 16 <<< 4) := by
  change headerOf 0x8 len 0 = _
  simp [headerOf]

section
variable {cfg : Cfg} {rate : Rate} {a : Arch} {len : BitVec 5} {din : Lanes 20}

/-- The one length of `DECBLK` (R74). -/
theorem lenLegal_decblk : lenLegal rate (.decblk len din) = true ↔ len.toNat = rate.bytes := by
  simp [lenLegal]

/-- The lengths of `DECLAST` (R74). -/
theorem lenLegal_declast : lenLegal rate (.declast len din) = true ↔ len.toNat < rate.bytes := by
  simp [lenLegal]

/-- When `DECBLK` is accepted (R25). -/
theorem acceptedNow_decblk : acceptedNow a (.decblk len din) = true ↔
    a.phase = .processing ∧ a.ddone = false ∧ a.dir = .dec := by
  simp [acceptedNow, and_assoc]

/-- When `DECLAST` is accepted (R25). -/
theorem acceptedNow_declast : acceptedNow a (.declast len din) = true ↔
    a.phase = .processing ∧ a.ddone = false ∧ a.dir = .dec := by
  simp [acceptedNow, and_assoc]

/-- When the block of `DECBLK` fits the hold buffer (R193). -/
theorem fitsBuffer_decblk : fitsBuffer cfg a (.decblk len din) = true ↔
    a.plen.toNat + len.toNat ≤ cfg.pbufBytes.val := by
  simp [fitsBuffer]

/-- When the block of `DECLAST` fits the hold buffer (R193). -/
theorem fitsBuffer_declast : fitsBuffer cfg a (.declast len din) = true ↔
    a.plen.toNat + len.toNat ≤ cfg.pbufBytes.val := by
  simp [fitsBuffer]

end

/-- Settles O21: the length, the data phase of a decryption and the room in the hold buffer are the three checks of
`DECBLK`, and its effect holds the recovered block. -/
theorem decblkDecryptsABlock : Obligations.DecblkDecryptsABlock := by
  refine ⟨fun len din => exec_eq (.decblk len din), fun cfg len din s herr => ?_⟩
  obtain ⟨h8, h16⟩ := header_decblk din
  refine ⟨h8, h16, fun hlen => ?_, fun hlen hrejected => ?_, fun hlen hphase hddone hdir hfull => ?_,
    fun hlen hphase hddone hdir hfits => ?_⟩
  · exact execIn_badLen herr (Bool.eq_false_iff.mpr (mt lenLegal_decblk.mp hlen))
  · exact execIn_badPhase herr (lenLegal_decblk.mpr hlen)
      (Bool.eq_false_iff.mpr (mt acceptedNow_decblk.mp hrejected))
  · rw [← hlen] at hfull
    exact execIn_overflow herr (lenLegal_decblk.mpr hlen) (acceptedNow_decblk.mpr ⟨hphase, hddone, hdir⟩)
      (Bool.eq_false_iff.mpr (mt fitsBuffer_decblk.mp (Nat.not_le.mpr hfull)))
  · have hle : len.toNat ≤ 16 := hlen.trans_le (Rate.bytes_le cfg.rate)
    rw [← hlen] at hfits ⊢
    rw [execIn_ok herr (lenLegal_decblk.mpr hlen) (acceptedNow_decblk.mpr ⟨hphase, hddone, hdir⟩)
      (fitsBuffer_decblk.mpr hfits) rfl, decblkEffect_eq cfg hle]
    rfl

/-- Settles O22: the length, the data phase of a decryption and the room in the hold buffer are the three checks of
`DECLAST`, and its effect holds the recovered bytes, pads after them and closes the data phase. -/
theorem declastDecryptsTheLastBlock : Obligations.DeclastDecryptsTheLastBlock := by
  refine ⟨fun len din => exec_eq (.declast len din), fun cfg len din s herr => ?_⟩
  refine ⟨header_declast len din, fun hlen => ?_, fun hlen hrejected => ?_,
    fun hlen hphase hddone hdir hfull => ?_, fun hlen hphase hddone hdir hfits => ?_⟩
  · exact execIn_badLen herr (Bool.eq_false_iff.mpr (mt lenLegal_declast.mp (Nat.not_lt.mpr hlen)))
  · exact execIn_badPhase herr (lenLegal_declast.mpr hlen)
      (Bool.eq_false_iff.mpr (mt acceptedNow_declast.mp hrejected))
  · exact execIn_overflow herr (lenLegal_declast.mpr hlen) (acceptedNow_declast.mpr ⟨hphase, hddone, hdir⟩)
      (Bool.eq_false_iff.mpr (mt fitsBuffer_declast.mp (Nat.not_le.mpr hfull)))
  · have hle : len.toNat ≤ 16 := hlen.le.trans (Rate.bytes_le cfg.rate)
    rw [execIn_ok herr (lenLegal_declast.mpr hlen) (acceptedNow_declast.mpr ⟨hphase, hddone, hdir⟩)
      (fitsBuffer_declast.mpr hfits) rfl, declastEffect_eq cfg hle]
    rfl

end Sys2Proof.Machine

/-! PROOFS. The statements about finalization (spec/45_finalization_tag.md): what `FINENC` answers, what `FINDEC`
decides, where they fault (R140 to R144), and that entering `Finalized` leaves no secret (R145). -/

namespace Sys2Proof.Machine

/-! The finalization and the comparison word. -/

/-- The state `FinalizeCore` permutes: the rotated keys in words 1, 2 and 3 (R140). -/
def finalizeInput (cfg : Cfg) (k : KeyFile) (s : Sponge) : Sponge :=
  ⟨s.w0, s.w1 ^^^ cfg.keyrot k.k0 k.k1, s.w2 ^^^ cfg.keyrot k.k1 k.k2, s.w3 ^^^ cfg.keyrot k.k2 0, s.w4⟩

/-- `FinalizeCore` word by word, from the permuted state (R140). -/
theorem finalizeCore_eq (cfg : Cfg) (k : KeyFile) (s : Sponge) :
    let p := cfg.perm (finalizeInput cfg k s) roundsA
    finalizeCore cfg k s = ⟨p.w0, p.w1, p.w2, p.w3 ^^^ k.k1, p.w4 ^^^ k.k2⟩ := by
  rw [finalizeCore, permute_eq]
  rfl

/-- The response that carries a tag (R141): its `DOUT_LEN` is 16. -/
theorem okResponse_tagBytes (s : Sponge) : okResponse (tagBytes s) = ⟨.ok, 16, lanes16 (tagBytes s)⟩ := by
  rw [okResponse, tagBytes_length]
  rfl

/-- The comparison word by the payload bytes each tag word is loaded from (R142, R144). -/
theorem tagDifference_dinSlice (s : Sponge) (din : Lanes 20) : tagDifference s (dinSlice din 0 16) =
    (s.w3 ^^^ loadBytes (dinSlice din 0 8)) ||| (s.w4 ^^^ loadBytes (dinSlice din 8 8)) := by
  have h0 : (dinSlice din 0 16).take 8 = dinSlice din 0 8 := dinSlice_slice din (k := 0) (by decide)
  have h1 : ((dinSlice din 0 16).drop 8).take 8 = dinSlice din 8 8 := dinSlice_slice din (by decide)
  rw [tagDifference, h0, h1]

/-- The comparison word of a finalization, from the permuted state (R140, R144). -/
theorem tagDifference_finalizeCore (cfg : Cfg) (k : KeyFile) (s : Sponge) (din : Lanes 20) :
    let p := cfg.perm (finalizeInput cfg k s) roundsA
    tagDifference (finalizeCore cfg k s) (dinSlice din 0 16) =
      ((p.w3 ^^^ k.k1) ^^^ loadBytes (dinSlice din 0 8)) ||| ((p.w4 ^^^ k.k2) ^^^ loadBytes (dinSlice din 8 8)) := by
  rw [tagDifference_dinSlice, finalizeCore_eq]

/-! The effect of `FINDEC`, by the branch it takes (R142, R143). -/

/-- The tag matches. -/
theorem findecEffect_match {cfg : Cfg} {din : Lanes 20} {a : Arch}
    (h : tagDifference (finalizeCore cfg a.K a.S) (dinSlice din 0 16) = 0) :
    findecEffect cfg 16 din a = ({ zeroizeSecrets a with phase := .finalized, authOk := true }, okResponse []) := by
  rw [findecEffect, if_pos rfl, findecVerify, if_pos h]

/-- The tag does not match. -/
theorem findecEffect_mismatch {cfg : Cfg} {din : Lanes 20} {a : Arch}
    (h : tagDifference (finalizeCore cfg a.K a.S) (dinSlice din 0 16) ≠ 0) :
    findecEffect cfg 16 din a = (authFailureEntry .tagMismatch a, authFailResponse) := by
  rw [findecEffect, if_pos rfl, findecVerify, if_neg h]

/-- There is no whole tag to compare. -/
theorem findecEffect_undersized {len : BitVec 5} (h : len ≠ 16) (cfg : Cfg) (din : Lanes 20) (a : Arch) :
    findecEffect cfg len din a = (authFailureEntry .undersized a, authFailResponse) := by
  rw [findecEffect, if_neg h, findecUndersized]

/-! The headers and the checks of the two commands. -/

/-- The one header of a legal `FINENC` (R141). -/
theorem header_finenc : (encode (.finenc 0)).header = 0x0009 := by decide

/-- The header of `FINDEC` (R142, R143): its `LEN` field is the only part that varies. -/
theorem header_findec (len : BitVec 5) (din : Lanes 20) :
    (encode (.findec len din)).header = 0x000A ||| (len.setWidth 16 <<< 4) := by
  change headerOf 0xA len 0 = _
  simp [headerOf]

section
variable {rate : Rate} {a : Arch} {len : BitVec 5} {din : Lanes 20}

/-- The one length of `FINENC` (R74). -/
theorem lenLegal_finenc : lenLegal rate (.finenc len) = true ↔ len = 0 := by
  simp [lenLegal, ← BitVec.toNat_inj]

/-- The lengths of `FINDEC` (R74). -/
theorem lenLegal_findec : lenLegal rate (.findec len din) = true ↔ len.toNat ≤ 16 := by
  simp [lenLegal]

/-- When `FINENC` is accepted (R25). -/
theorem acceptedNow_finenc : acceptedNow a (.finenc len) = true ↔
    a.phase = .processing ∧ a.ddone = true ∧ a.dir = .enc := by
  simp [acceptedNow, and_assoc]

/-- When `FINDEC` with a whole tag is accepted (R25). -/
theorem acceptedNow_findec_verify : acceptedNow a (.findec 16 din) = true ↔
    a.phase = .processing ∧ a.ddone = true ∧ a.dir = .dec := by
  simp [acceptedNow, and_assoc]

/-- When `FINDEC` without a whole tag is accepted (R25). -/
theorem acceptedNow_findec_undersized (h : len ≠ 16) : acceptedNow a (.findec len din) = true ↔
    a.phase = .uninitialized ∨ (a.dir = .dec ∧ a.phase ≠ .finalized) := by
  rw [acceptedNow, if_neg h]
  simp

end

/-- Settles O23: the length and the closed data phase of an encryption are the two checks of `FINENC`, and its
effect answers the tag of the finalization. -/
theorem finencReturnsTheTag : Obligations.FinencReturnsTheTag := by
  intro len s herr
  refine ⟨header_finenc, fun hlen => ?_, fun hlen hrejected => ?_, fun hlen hphase hddone hdir => ?_⟩
  · exact exec_badLen herr (Bool.eq_false_iff.mpr (mt lenLegal_finenc.mp hlen))
  · rw [exec_eq]
    exact execIn_badPhase herr (lenLegal_finenc.mpr hlen)
      (Bool.eq_false_iff.mpr (mt acceptedNow_finenc.mp hrejected))
  · rw [exec_eq, execIn_ok herr (lenLegal_finenc.mpr hlen) (acceptedNow_finenc.mpr ⟨hphase, hddone, hdir⟩) rfl rfl,
      finencEffect, okResponse_tagBytes, finalizeCore_eq]
    rfl

/-- Settles O24: the closed data phase of a decryption is the check of `FINDEC` with a whole tag, and the word its
effect decides by is the comparison word of the finalization. -/
theorem findecVerifiesTheTag : Obligations.FindecVerifiesTheTag := by
  intro din s herr
  have hlegal : lenLegal Config.cfg.rate (.findec 16 din) = true := lenLegal_findec.mpr (Nat.le_refl 16)
  refine ⟨header_findec 16 din, fun hrejected => ?_, fun hphase hddone hdir => ?_⟩
  · rw [exec_eq]
    exact execIn_badPhase herr hlegal (Bool.eq_false_iff.mpr (mt acceptedNow_findec_verify.mp hrejected))
  · have hd := tagDifference_finalizeCore Config.cfg s.K s.S din
    rw [exec_eq, execIn_ok herr hlegal (acceptedNow_findec_verify.mpr ⟨hphase, hddone, hdir⟩) rfl rfl]
    refine ⟨fun hzero => ?_, fun hnonzero => ?_⟩
    · rw [findecEffect_match (hd.trans hzero)]
      rfl
    · rw [findecEffect_mismatch (hd.trans_ne hnonzero)]
      rfl

/-- Settles O25: the length and the unfinished decryption are the two checks of `FINDEC` without a whole tag, and
its effect is the failure entry whatever the payload. -/
theorem findecReportsUndersized : Obligations.FindecReportsUndersized := by
  intro len din s herr
  refine ⟨header_findec len din, fun hlen => ?_, fun hlen hrejected => ?_, fun hlen haccepted => ?_⟩
  · exact exec_badLen herr (Bool.eq_false_iff.mpr (mt lenLegal_findec.mp (Nat.not_le.mpr hlen)))
  all_goals have hne : len ≠ 16 := fun h => absurd (h ▸ hlen) (by decide)
  · rw [exec_eq]
    exact execIn_badPhase herr (lenLegal_findec.mpr hlen.le)
      (Bool.eq_false_iff.mpr (mt (acceptedNow_findec_undersized hne).mp hrejected))
  · rw [exec_eq, execIn_ok herr (lenLegal_findec.mpr hlen.le) ((acceptedNow_findec_undersized hne).mpr haccepted)
      rfl rfl, findecEffect_undersized hne]
    rfl

/-! Entering `Finalized` (R145). -/

/-- An executed command that ends in `Finalized` was there before it, or has zeroized the secrets. -/
theorem effectOf_finalized {cfg : Cfg} {i : Instr} {a : Arch} {e : Arch × Response}
    (he : effectOf cfg i a = some e) (hfin : e.1.phase = .finalized) :
    a.phase = .finalized ∨ (e.1.S = Sponge.zero ∧ e.1.K = KeyFile.zero ∧ e.1.kvalid = false) := by
  cases i with
  | finenc len => cases he; exact .inr ⟨rfl, rfl, rfl⟩
  | findec len din =>
    cases he
    rcases findecEffect_arch cfg len din a with ⟨-, -, harch⟩ | ⟨cause, harch⟩ <;> rw [harch] <;>
      exact .inr ⟨rfl, rfl, rfl⟩
  | init _ _ _ | adblk _ _ | adlast _ _ | scrub _ => cases he; cases hfin
  | rdpt len => rw [rdptEffect_arch he] at hfin; exact .inl hfin
  | _ => cases he; exact .inl hfin

/-- Settles O32: reset leaves another phase than `Finalized`, and a fault and the two finalizations zeroize. -/
theorem finalizedHoldsNoSecret : Obligations.FinalizedHoldsNoSecret := by
  intro s t h hbefore hafter
  rcases step_arch h with heq | ⟨heq, -⟩ | ⟨-, c, heq⟩ | ⟨c, rest, i, e, -, -, -, he, heq⟩ <;> rw [heq] at hafter ⊢
  · exact absurd hafter hbefore
  · cases hafter
  · exact ⟨rfl, rfl, rfl⟩
  · exact (effectOf_finalized he hafter).resolve_left hbefore

end Sys2Proof.Machine

/-! PROOFS. The statements about the system commands (spec/46_system_commands.md): what `RDPT` answers, what `SCRUB`
clears, and where the two fault (R156, R157). -/

namespace Sys2Proof.Machine

/-! Their headers and their checks. -/

/-- The header of `RDPT` (R156): its `LEN` field is the only part that varies. -/
theorem header_rdpt (len : BitVec 5) :
    (encode (.rdpt len)).header = 0x000B ||| (len.setWidth 16 <<< 4) := by
  change headerOf 0xB len 0 = _
  simp [headerOf]

/-- The one header of a legal `SCRUB` (R157). -/
theorem header_scrub : (encode (.scrub 0)).header = 0x000C := by decide

/-- The lengths of `RDPT` (R74). -/
theorem lenLegal_rdpt {rate : Rate} {len : BitVec 5} :
    lenLegal rate (.rdpt len) = true ↔ 1 ≤ len.toNat ∧ len.toNat ≤ 16 := by
  simp [lenLegal]

/-- The one length of `SCRUB` (R74). -/
theorem lenLegal_scrub {rate : Rate} {len : BitVec 5} : lenLegal rate (.scrub len) = true ↔ len = 0 := by
  simp [lenLegal, ← BitVec.toNat_inj]

/-- When `RDPT` is accepted (R25). -/
theorem acceptedNow_rdpt {a : Arch} {len : BitVec 5} :
    acceptedNow a (.rdpt len) = true ↔ a.phase = .finalized ∧ a.authOk = true := by
  simp [acceptedNow]

/-! The response of `RDPT`. -/

/-- The `n` bytes of the hold buffer from offset `o` on, as a response. -/
theorem okResponse_read (m : Memory) (o n : Nat) :
    okResponse ((List.range n).map fun j => m.read (o + j)) =
      ⟨.ok, BitVec.ofNat 5 n, lanes16 ((List.range n).map fun j => m.read (o + j))⟩ := by
  rw [okResponse, List.length_map, List.length_range]

/-- Settles O26: the length and a decryption that verified are the two checks of `RDPT`, and with `PLEN` inside
the hold buffer its effect answers the `readCount` bytes from `PRD` on. -/
theorem rdptReleasesPlaintext : Obligations.RdptReleasesPlaintext := by
  refine ⟨fun len s => exec_eq (.rdpt len) s, fun cfg len s herr =>
    ⟨header_rdpt len, fun hlen => ?_, fun hlow hhigh hrejected => ?_, fun hlow hhigh hphase hauth _ hfit => ?_⟩⟩
  · have hillegal : ¬(1 ≤ len.toNat ∧ len.toNat ≤ 16) := by omega
    exact execIn_badLen herr (Bool.eq_false_iff.mpr (mt lenLegal_rdpt.mp hillegal))
  · exact execIn_badPhase herr (lenLegal_rdpt.mpr ⟨hlow, hhigh⟩)
      (Bool.eq_false_iff.mpr (mt acceptedNow_rdpt.mp hrejected))
  · rw [execIn_ok herr (lenLegal_rdpt.mpr ⟨hlow, hhigh⟩) (acceptedNow_rdpt.mpr ⟨hphase, hauth⟩) rfl
      (rdptEffect_some hfit), okResponse_read]
    rfl

/-- Settles O27: `SCRUB` is executed in every state, and its effect is the reset state. -/
theorem scrubLeavesTheResetState : Obligations.ScrubLeavesTheResetState := by
  refine fun len s => ⟨header_scrub, ?_, fun hlen herr => ?_⟩
  · rw [exec_scrub_zero, scrubEffect, discardOperation_eq]
    rfl
  · exact exec_badLen herr (Bool.eq_false_iff.mpr (mt lenLegal_scrub.mp hlen))

end Sys2Proof.Machine

/-! PROOFS. The statements about whole operations (spec/47_facade_sequences.md): the functions `encrypt` and `decrypt`
on strings (R173, R174, R176), and the command sequences that compute them (R170, R171). -/

namespace Sys2Proof.Machine

/-! The length of a ciphertext (R173). -/

/-- A block and its ciphertext have one length (R120). -/
theorem encryptBlock_length (cfg : Cfg) (s : Sponge) {b : List Byte} (h : b.length = cfg.rate.bytes) :
    (encryptBlock cfg s b).2.length = cfg.rate.bytes :=
  (regionBytes_length _ _ (h.trans_le (Rate.bytes_le cfg.rate))).trans h

/-- A last block and its ciphertext have one length (R121). -/
theorem encryptLast_length (cfg : Cfg) (s : Sponge) {l : List Byte} (h : l.length < cfg.rate.bytes) :
    (encryptLast cfg s l).2.length = l.length :=
  regionBytes_length _ _ (h.le.trans (Rate.bytes_le cfg.rate))

/-- The ciphertext blocks of a plaintext's full blocks (R122). -/
def cipherBlocks (cfg : Cfg) : Sponge → List (List Byte) → List (List Byte)
  | _, [] => []
  | s, b :: bs => (encryptBlock cfg s b).2 :: cipherBlocks cfg (encryptBlock cfg s b).1 bs

/-- `cipherBlocks` are the output of the full blocks, cut into blocks again. -/
theorem threadBlocks_encrypt_output (cfg : Cfg) (s : Sponge) (bs : List (List Byte)) :
    (threadBlocks (encryptBlock cfg) s bs).2 = (cipherBlocks cfg s bs).flatten := by
  induction bs generalizing s with
  | nil => rfl
  | cons b bs ih => rw [threadBlocks, cipherBlocks, List.flatten_cons, ih]

/-- There is one ciphertext block for each block. -/
theorem cipherBlocks_length (cfg : Cfg) (s : Sponge) (bs : List (List Byte)) :
    (cipherBlocks cfg s bs).length = bs.length := by
  induction bs generalizing s with
  | nil => rfl
  | cons b bs ih => rw [cipherBlocks, List.length_cons, ih, List.length_cons]

section
variable {cfg : Cfg} {bs : List (List Byte)} (hbs : ∀ b ∈ bs, b.length = cfg.rate.bytes)
include hbs

/-- Each ciphertext block is a full block. -/
theorem cipherBlocks_mem_length (s : Sponge) : ∀ c ∈ cipherBlocks cfg s bs, c.length = cfg.rate.bytes := by
  induction bs generalizing s with
  | nil => exact fun c hc => absurd hc List.not_mem_nil
  | cons b bs ih =>
    obtain ⟨hb, hbs⟩ := List.forall_mem_cons.mp hbs
    exact List.forall_mem_cons.mpr ⟨encryptBlock_length cfg s hb, ih hbs _⟩

/-- Decrypting the ciphertext blocks passes through the same states and recovers the blocks (R133). -/
theorem threadBlocks_decrypt_cipherBlocks (s : Sponge) :
    threadBlocks (decryptBlock cfg) s (cipherBlocks cfg s bs) =
      ((threadBlocks (encryptBlock cfg) s bs).1, bs.flatten) := by
  induction bs generalizing s with
  | nil => rfl
  | cons b bs ih =>
    obtain ⟨hb, hbs⟩ := List.forall_mem_cons.mp hbs
    rw [cipherBlocks, threadBlocks, decryptBlock_encryptBlock (hb.trans_le (Rate.bytes_le cfg.rate)) cfg, ih hbs]
    rfl

end

/-- The number of bytes in full blocks (R172). -/
theorem flatten_length_of_blocks {r : Rate} {bs : List (List Byte)} (h : ∀ b ∈ bs, b.length = r.bytes) :
    bs.flatten.length = bs.length * r.bytes := by
  rw [List.length_flatten, List.map_congr_left h, List.map_const', List.sum_replicate, smul_eq_mul]

/-- A string has the bytes of its full blocks and of its last block (R172). -/
theorem split_length (r : Rate) (x : List Byte) :
    (fullBlocks r x).length * r.bytes + (lastBlock r x).length = x.length := by
  rw [fullBlocks_length, lastBlock_length, Nat.div_add_mod']

/-- `ProcessEncrypt` keeps the length (R122). -/
theorem processEncrypt_length (cfg : Cfg) (s : Sponge) (pt : List Byte) :
    (processEncrypt cfg s pt).2.length = pt.length := by
  have hfull : ∀ b ∈ fullBlocks cfg.rate pt, b.length = cfg.rate.bytes := fun _ => fullBlocks_mem
  rw [processEncrypt, List.length_append, threadBlocks_encrypt_output,
    flatten_length_of_blocks (cipherBlocks_mem_length hfull s), cipherBlocks_length,
    encryptLast_length cfg _ (lastBlock_lt cfg.rate pt), split_length]

/-- Settles O47: the body has the length of the plaintext, and the tag sixteen bytes. -/
theorem ciphertextLength : Obligations.CiphertextLength := by
  intro cfg key nonce ad pt
  rw [encryptMessage, List.length_append, processEncrypt_length, tagBytes_length]

/-! Decryption of what was encrypted (R174, R176). -/

/-- `ProcessDecrypt` on the output of `ProcessEncrypt` ends in the same state and recovers the plaintext (R133). -/
theorem processDecrypt_processEncrypt (cfg : Cfg) (s : Sponge) (pt : List Byte) :
    processDecrypt cfg s (processEncrypt cfg s pt).2 = ((processEncrypt cfg s pt).1, pt) := by
  have hfull : ∀ b ∈ fullBlocks cfg.rate pt, b.length = cfg.rate.bytes := fun _ => fullBlocks_mem
  have hlast := lastBlock_lt cfg.rate pt
  obtain ⟨hblocks, hrest⟩ := split_join (cipherBlocks_mem_length hfull s)
    ((encryptLast_length cfg (threadBlocks (encryptBlock cfg) s (fullBlocks cfg.rate pt)).1 hlast).trans_lt hlast)
  simp only [processDecrypt, processEncrypt, threadBlocks_encrypt_output, hblocks, hrest,
    threadBlocks_decrypt_cipherBlocks hfull, decryptLast_encryptLast cfg (hlast.trans_le (Rate.bytes_le cfg.rate)),
    split_flatten]

/-- `decrypt` of a body with a tag after it (R171). -/
theorem decryptMessage_append (cfg : Cfg) (key nonce ad body : List Byte) {tag : List Byte} (h : tag.length = 16) :
    decryptMessage cfg key nonce ad (body ++ tag) =
      let r := processDecrypt cfg (stateAfterAD cfg key nonce ad) body
      if tagBytes (finalizeCore cfg (loadKey cfg key) r.1) = tag then some r.2 else none := by
  have hbody : (body ++ tag).length - 16 = body.length := by rw [List.length_append, h, Nat.add_sub_cancel]
  rw [decryptMessage, if_neg (by rw [List.length_append, h]; omega), hbody, List.take_left, List.drop_left]

/-- Settles O48: the decryption ends in the state of the encryption, so it computes the same tag. -/
theorem messageRoundTrip : Obligations.MessageRoundTrip := by
  intro cfg key nonce ad pt
  rw [encryptMessage, decryptMessage_append _ _ _ _ _ (tagBytes_length _)]
  simp only [processDecrypt_processEncrypt, if_true]

/-- Settles O49: the tag that decryption computes is the one the ciphertext had. -/
theorem changedTagIsRejected : Obligations.ChangedTagIsRejected := by
  intro cfg key nonce ad pt tag htag hne
  have hbody : (encryptMessage cfg key nonce ad pt).take pt.length =
      (processEncrypt cfg (stateAfterAD cfg key nonce ad) pt).2 :=
    List.take_left' (processEncrypt_length _ _ _)
  rw [hbody] at hne ⊢
  rw [decryptMessage_append _ _ _ _ _ htag]
  simp only [processDecrypt_processEncrypt]
  rw [if_neg]
  exact fun h => hne (congrArg (_ ++ ·) h.symm)

/-! Runs of commands that are all answered `OK`. -/

/-- The commands `is` lead from state `a` to state `a'`, are all answered `OK`, and the host collects
`bytes`. -/
def RunsOk (cfg : Cfg) (is : List Instr) (a a' : Arch) (bytes : List Byte) : Prop :=
  ∃ rs, Runs cfg is a a' rs ∧ (∀ r ∈ rs, r.rsp = .ok) ∧ collect rs = bytes

/-- One run after another. -/
theorem RunsOk.append {cfg : Cfg} {is js : List Instr} {a b c : Arch} {xs ys : List Byte}
    (h : RunsOk cfg is a b xs) (g : RunsOk cfg js b c ys) : RunsOk cfg (is ++ js) a c (xs ++ ys) := by
  obtain ⟨rs, hruns, hok, rfl⟩ := h
  obtain ⟨qs, gruns, gok, rfl⟩ := g
  exact ⟨rs ++ qs, hruns.append gruns, List.forall_mem_append.mpr ⟨hok, gok⟩, collect_append rs qs⟩

/-- One command that is executed and answers `OK`. -/
theorem RunsOk.one {cfg : Cfg} {i : Instr} {a a' : Arch} {bytes : List Byte} (hlen : bytes.length ≤ 16)
    (hv : verdict cfg a i = .execute) (he : effectOf cfg i a = some (a', okResponse bytes)) :
    RunsOk cfg [i] a a' bytes :=
  ⟨_, Runs.one decodeInvertsEncode hv he, fun _ hr => List.mem_singleton.mp hr ▸ rfl,
    (List.append_nil _).trans (okResponse_bytes hlen)⟩

/-- `SCRUB` ends every sequence (R157). -/
theorem runsOk_scrub (cfg : Cfg) (a : Arch) : RunsOk cfg [.scrub 0] a Arch.reset [] :=
  .one (Nat.zero_le _) (verdict_always (.inr rfl)) rfl

/-- The state of an operation between its associated data and its first data block (R170, R171). -/
def dataState (cfg : Cfg) (dir : Dir) (key nonce ad : List Byte) : Arch :=
  { Arch.reset with
    S := stateAfterAD cfg key nonce ad
    K := loadKey cfg key
    kvalid := true
    dir := dir
    phase := .processing }

/-- The state of an encryption when its last block has been encrypted (R122). -/
def encryptedState (cfg : Cfg) (key nonce ad pt : List Byte) : Arch :=
  { dataState cfg .enc key nonce ad with
    S := (processEncrypt cfg (stateAfterAD cfg key nonce ad) pt).1
    ddone := true }

section
variable (cfg : Cfg) {key nonce : List Byte} (hkey : key.length = 20) (hnonce : nonce.length = 16) (ad : List Byte)
include hkey hnonce

/-- The commands that both sequences begin with (R170, R171). -/
theorem runsOk_start (dir : Dir) :
    RunsOk cfg ([.ldkey (lenOf key) (lanes20 key), .init dir (lenOf nonce) (lanes20 nonce)] ++ adCommands cfg.rate ad)
      Arch.reset (dataState cfg dir key nonce ad) [] :=
  .append (runs_start decodeInvertsEncode cfg dir key nonce hkey hnonce)
    (runs_ad decodeInvertsEncode cfg _ _ _ (fun _ => fullBlocks_mem) (lastBlock_lt cfg.rate ad) rfl (.inl rfl))

/-- The sequence of `ENCRYPT` (R170). -/
theorem runsOk_encrypt (pt : List Byte) :
    RunsOk cfg (encryptCommands cfg.rate key nonce ad pt) Arch.reset Arch.reset
      (encryptMessage cfg key nonce ad pt) := by
  have body : RunsOk cfg (encCommands cfg.rate pt) _ (encryptedState cfg key nonce ad pt) _ :=
    runs_enc decodeInvertsEncode cfg _ _ (dataState cfg .enc key nonce ad) (fun _ => fullBlocks_mem)
      (lastBlock_lt cfg.rate pt) rfl rfl rfl rfl
  have tag : RunsOk cfg [.finenc 0] (encryptedState cfg key nonce ad pt) _ _ :=
    .one (tagBytes_length _).le (verdict_execute.mpr ⟨.inl rfl, rfl, rfl, rfl⟩) rfl
  have run := ((runsOk_start cfg hkey hnonce ad .enc).append body).append (tag.append (runsOk_scrub cfg _))
  rw [List.append_nil] at run
  exact run

end

/-- The number of commands of `ENCRYPT` (R175). -/
theorem encryptCommands_length (rate : Rate) (key nonce ad pt : List Byte) :
    (encryptCommands rate key nonce ad pt).length =
      2 + (ad.length / rate.bytes + 1) + (pt.length / rate.bytes + 1) + 2 := by
  simp only [encryptCommands, adCommands, encCommands, List.length_append, List.length_map, fullBlocks_length,
    List.length_cons, List.length_nil]

/-- Settles O50: the parts of the sequence run one after another, and their bytes joined are body and tag. -/
theorem encryptSequenceComputesEncrypt : Obligations.EncryptSequenceComputesEncrypt := by
  intro cfg key nonce ad pt hkey hnonce
  obtain ⟨rs, hruns, hok, hbytes⟩ := runsOk_encrypt cfg hkey hnonce ad pt
  exact ⟨encryptCommands_length cfg.rate key nonce ad pt, rs, hruns.run, hok, hruns.1, hbytes⟩

/-! The sequence of `DECRYPT` (R171). -/

/-- The state of a decryption when its whole body is held (R132). -/
def heldState (cfg : Cfg) (key nonce ad body : List Byte) : Arch :=
  let r := processDecrypt cfg (stateAfterAD cfg key nonce ad) body
  { holdPlaintext r.2 (dataState cfg .dec key nonce ad) with S := r.1, ddone := true }

/-- The state of a decryption whose tag has matched (R142). -/
def verifiedState (cfg : Cfg) (key nonce ad body : List Byte) : Arch :=
  { zeroizeSecrets (heldState cfg key nonce ad body) with phase := .finalized, authOk := true }

/-- The sequence of `DECRYPT` for a body with a tag after it. -/
theorem decryptCommands_append (rate : Rate) (key nonce ad body : List Byte) {tag : List Byte}
    (h : tag.length = 16) : decryptCommands rate key nonce ad (body ++ tag) =
      [.ldkey (lenOf key) (lanes20 key), .init .dec (lenOf nonce) (lanes20 nonce)] ++ adCommands rate ad ++
        decCommands rate body ++ [.findec 16 (lanes20 tag)] := by
  have hbody : (body ++ tag).length - 16 = body.length := by rw [List.length_append, h, Nat.add_sub_cancel]
  rw [decryptCommands, if_neg (by rw [List.length_append, h]; omega), hbody, List.take_left, List.drop_left]

/-- A string of sixteen bytes or more is a body with a tag after it (R171). -/
theorem exists_body_tag {ct : List Byte} (h : 16 ≤ ct.length) :
    ∃ body tag : List Byte, ct = body ++ tag ∧ tag.length = 16 :=
  ⟨ct.take (ct.length - 16), ct.drop (ct.length - 16), (List.take_append_drop _ _).symm,
    by rw [List.length_drop]; omega⟩

section
variable {cfg : Cfg} {key nonce : List Byte} (hkey : key.length = 20) (hnonce : nonce.length = 16) (ad : List Byte)
  {body : List Byte} (hfit : body.length ≤ cfg.pbufBytes.val)
include hfit

/-- A body that fits the buffer fits it when it is held block by block from the reset value of `PLEN` on (R193). -/
theorem dataState_fits (dir : Dir) (key nonce : List Byte) :
    (dataState cfg dir key nonce ad).plen.toNat + (fullBlocks cfg.rate body).length * cfg.rate.bytes +
      (lastBlock cfg.rate body).length ≤ cfg.pbufBytes.val := by
  have hplen : (dataState cfg dir key nonce ad).plen.toNat = 0 := rfl
  rwa [hplen, Nat.zero_add, split_length]

/-- What the body decrypts to has its length (R132). -/
theorem processDecrypt_length (key nonce : List Byte) :
    (processDecrypt cfg (stateAfterAD cfg key nonce ad) body).2.length = body.length := by
  have hlen := (runs_dec decodeInvertsEncode cfg _ _ (dataState cfg .dec key nonce ad) (fun _ => fullBlocks_mem)
    (lastBlock_lt cfg.rate body) rfl rfl rfl rfl (dataState_fits ad hfit .dec key nonce)).1
  exact hlen.trans (split_length cfg.rate body)

include hkey hnonce

/-- The sequence of `DECRYPT` up to its `FINDEC` (R171). -/
theorem runsOk_held :
    RunsOk cfg ([.ldkey (lenOf key) (lanes20 key), .init .dec (lenOf nonce) (lanes20 nonce)] ++
      adCommands cfg.rate ad ++ decCommands cfg.rate body) Arch.reset (heldState cfg key nonce ad body) [] :=
  .append (runsOk_start cfg hkey hnonce ad .dec)
    (runs_dec decodeInvertsEncode cfg _ _ _ (fun _ => fullBlocks_mem) (lastBlock_lt cfg.rate body) rfl rfl rfl rfl
      (dataState_fits ad hfit .dec key nonce)).2

end

/-- The comparison word of the `FINDEC` that carries `tag` (R144). -/
theorem heldState_tagDifference (cfg : Cfg) (key nonce ad body : List Byte) {tag : List Byte} (h : tag.length = 16) :
    tagDifference (finalizeCore cfg (heldState cfg key nonce ad body).K (heldState cfg key nonce ad body).S)
        (dinSlice (lanes20 tag) 0 16) = 0 ↔
      tagBytes (finalizeCore cfg (loadKey cfg key) (processDecrypt cfg (stateAfterAD cfg key nonce ad) body).1) =
        tag := by
  have hslice : dinSlice (lanes20 tag) 0 16 = tag := h ▸ lanes20_take tag (by omega)
  rw [hslice, tagDifference_eq_zero _ _ h]
  exact eq_comm

/-- `FINDEC` with a whole tag is executed when the body is held (R25). -/
theorem heldState_findec_executed (cfg : Cfg) (key nonce ad body : List Byte) (din : Lanes 20) :
    verdict cfg (heldState cfg key nonce ad body) (.findec 16 din) = .execute :=
  verdict_execute.mpr ⟨.inl rfl, rfl, rfl, rfl⟩

/-- Reading out a verified decryption gives the whole plaintext (R156, R171). -/
theorem runsOk_read {cfg : Cfg} {key nonce ad body pt : List Byte} (hfit : body.length ≤ cfg.pbufBytes.val)
    (hpt : (processDecrypt cfg (stateAfterAD cfg key nonce ad) body).2 = pt) :
    ∃ a', RunsOk cfg (readCommands pt.length) (verifiedState cfg key nonce ad body) a' pt := by
  have hlen : pt.length = body.length := hpt ▸ processDecrypt_length ad hfit key nonce
  have hbound := cfg.pbufBytes.isLt
  have hplen : (verifiedState cfg key nonce ad body).plen.toNat = pt.length := by
    have hheld := holdPlaintext_plen_toNat (p := pt) (a := dataState cfg .dec key nonce ad)
      (show 0 + pt.length < 2 ^ 32 by omega)
    rw [← hpt] at hheld ⊢
    exact hheld.trans (Nat.zero_add _)
  obtain ⟨rs, b, hruns, hok, hb, hbytes⟩ := runs_read decodeInvertsEncode cfg ((pt.length + 15) / 16 + 1)
    (verifiedState cfg key nonce ad body) rfl rfl rfl (by omega) (Nat.zero_le _)
  refine ⟨_, rs, hruns, hok, hbytes.trans ?_⟩
  have hread : b.toNat = pt.length := by
    have hprd : (verifiedState cfg key nonce ad body).prd.toNat = 0 := rfl
    omega
  have hmem := memRead_memWrite Memory.wf_nil 0 pt
  rw [hread]
  rw [← hpt] at hmem ⊢
  exact hmem

/-- `FINDEC` without a whole tag is executed in the reset state (R25, R143). -/
theorem findec_short_executed (cfg : Cfg) {ct : List Byte} (h : ct.length < 16) :
    lenOf ct ≠ 16 ∧ verdict cfg Arch.reset (.findec (lenOf ct) (lanes20 ct)) = .execute := by
  have hlen : (lenOf ct).toNat = ct.length := lenOf_toNat ct (by omega)
  have hne : lenOf ct ≠ 16 := fun h16 => by rw [h16] at hlen; exact absurd hlen h.ne'
  exact ⟨hne, verdict_execute.mpr ⟨.inl rfl, lenLegal_findec.mpr (by omega),
    (acceptedNow_findec_undersized hne).mpr (.inl rfl), rfl⟩⟩

/-- A sequence whose last command alone answers `AUTH_FAIL`, with `SCRUB` after it: nothing is collected (R171,
R191). -/
theorem runs_authFail {cfg : Cfg} {is : List Instr} {i : Instr} {a : Arch} {cause : AuthCause}
    (hruns : RunsOk cfg is Arch.reset a []) (hv : verdict cfg a i = .execute)
    (he : effectOf cfg i a = some (authFailureEntry cause a, authFailResponse)) :
    let cmds := is ++ [i] ++ [.scrub 0]
    ∃ before after, runIn cfg cmds.length { State.reset with inbox := hostEvents cmds } =
        .next { State.reset with outbox := before ++ [emptyResponse .authFail, after] } ∧
      (∀ r ∈ before, r.rsp = .ok) ∧ collect before = [] ∧ after = emptyResponse .ok := by
  obtain ⟨rs, hruns, hok, hbytes⟩ := hruns
  have failed := Runs.one decodeInvertsEncode hv he
  have scrubbed := Runs.one decodeInvertsEncode (verdict_always (cfg := cfg) (.inr rfl))
    (congrArg some (rfl : scrubEffect (authFailureEntry cause a) = _))
  have run := ((hruns.append failed).append scrubbed).run
  rw [List.append_assoc rs] at run
  exact ⟨rs, _, run, hok, hbytes, rfl⟩

/-- Settles O51: a string without a whole tag is one `FINDEC`. For any other, both outcomes are one run up to
`FINDEC`: the matching tag leaves the plaintext to be read out, and another tag is answered `AUTH_FAIL`. -/
theorem decryptSequenceComputesDecrypt : Obligations.DecryptSequenceComputesDecrypt := by
  intro cfg key nonce ad ct hkey hnonce hfit
  rcases Nat.lt_or_ge ct.length 16 with hshort | hlong
  · have hnone : decryptMessage cfg key nonce ad ct = none := if_pos hshort
    obtain ⟨hne, hv⟩ := findec_short_executed cfg hshort
    refine ⟨fun pt hpt => (by cases hnone.symm.trans hpt), fun _ => ?_⟩
    rw [decryptCommands, if_pos hshort]
    exact runs_authFail (is := []) ⟨[], Runs.nil cfg _, by simp, rfl⟩ hv
      (congrArg some (findecEffect_undersized hne cfg _ _))
  · obtain ⟨body, tag, rfl, htag⟩ := exists_body_tag hlong
    have hbody : body.length ≤ cfg.pbufBytes.val := by
      rwa [List.length_append, htag, Nat.add_sub_cancel] at hfit
    have held := runsOk_held hkey hnonce ad hbody
    have hdiff := heldState_tagDifference cfg key nonce ad body htag
    have hv := heldState_findec_executed cfg key nonce ad body (lanes20 tag)
    rw [decryptMessage_append _ _ _ _ _ htag, decryptCommands_append _ _ _ _ _ htag]
    refine ⟨fun pt hpt => ?_, fun hnone => ?_⟩
    · obtain ⟨hmatch, hplain⟩ := Option.ite_none_right_eq_some.mp hpt
      obtain ⟨a', read⟩ := runsOk_read hbody (Option.some.inj hplain)
      have verified : RunsOk cfg _ _ (verifiedState cfg key nonce ad body) [] :=
        .one (Nat.zero_le _) hv (congrArg some (findecEffect_match (hdiff.mpr hmatch)))
      obtain ⟨rs, hruns, hok, hbytes⟩ := ((held.append verified).append read).append (runsOk_scrub cfg a')
      exact ⟨rs, hruns.run, hok, hbytes.trans (List.append_nil pt)⟩
    · have hmismatch : ¬tagBytes _ = tag := fun hmatch => absurd ((if_pos hmatch).symm.trans hnone) (by simp)
      exact runs_authFail held hv (congrArg some (findecEffect_mismatch (mt hdiff.mp hmismatch)))

end Sys2Proof.Machine

/-! PROOFS. The statements about the exceptional outcomes (spec/60_exceptions.md): the checks in their order (R193),
what is served while `ERR = 1` (R195), that every event has a next state (R190), and that several instances do not
affect each other (R207). -/

namespace Sys2Proof.Machine

/-! The step of a command, by what the decoder and the checks make of it. -/

section
variable {s : State} {c : Command} {rest : List HostEvent} (hin : s.inbox = .command c :: rest)
include hin

/-- A header the decoder refuses (checks 0 to 3 of R193). -/
theorem step_of_error {e : FaultCode} (hd : decode c = .error e) :
    step s = .next (State.rejectHeader e { s with inbox := rest }) := by
  simp only [step, hin, hd]

/-- A header the decoder refuses, while `ERR = 0`, faults with the decoder's code (R192). -/
theorem step_badHeader {e : FaultCode} (herr : s.err = false) (hd : decode c = .error e) :
    step s = .next (State.faulted e { s with inbox := rest }) := by
  rw [step_of_error hin hd, State.rejectHeader, if_neg (ne_true_of_eq_false herr)]
  rfl

/-- While `ERR = 1` every header but two is answered `FAULT` and changes nothing (R195). -/
theorem step_refused (herr : s.err = true) (h0 : c.header ≠ 0x0000) (hC : c.header ≠ 0x000C) :
    step s = .next { s with inbox := rest, outbox := s.outbox ++ [emptyResponse .fault] } := by
  cases hd : decode c with
  | error e =>
    rw [step_of_error hin hd, State.rejectHeader, if_pos herr]
    rfl
  | ok i =>
    have hserved : servedInError i = false := by
      rw [Bool.eq_false_iff, ne_eq, servedInError_iff, decode_ok_header hd]
      exact not_or.mpr ⟨h0, hC⟩
    rw [stepRunsTheDecodedCommand s c i rest hin hd, exec_eq,
      execIn_of_refuse (s := { s with inbox := rest }) (verdict_refuse herr hserved)]
    rfl

/-- Where `PLEN` is within the buffer an accepted command has a next state (R190). -/
theorem step_command_total (hp : s.plen.toNat ≤ Config.cfg.pbufBytes.val) : ∃ t, step s = .next t := by
  cases hd : decode c with
  | error e => exact ⟨_, step_of_error hin hd⟩
  | ok i =>
    rw [stepRunsTheDecodedCommand s c i rest hin hd, exec_eq]
    exact execIn_total i _ hp

end

/-- A reset event (R220). -/
theorem step_reset {s : State} {rest : List HostEvent} (hin : s.inbox = .reset :: rest) :
    step s = .next { toArch := Arch.reset, inbox := rest, outbox := s.outbox } := by
  simp only [step, hin]
  rfl

/-- No event (R228; log 1). -/
theorem step_idle {s : State} (hin : s.inbox = []) : step s = .next s := by
  simp only [step, hin]

/-- What an inbox can offer next: nothing, a reset, or a command. -/
theorem inbox_cases (events : List HostEvent) :
    events = [] ∨ (∃ rest, events = .reset :: rest) ∨ ∃ c rest, events = .command c :: rest := by
  cases events with
  | nil => exact .inl rfl
  | cons event rest =>
    cases event with
    | reset => exact .inr (.inl ⟨rest, rfl⟩)
    | command c => exact .inr (.inr ⟨c, rest, rfl⟩)

/-! The order of the checks (R193). -/

/-- The opcode number of `INIT`. -/
theorem opField_eq_two {h : BitVec 16} : opField h = 2 ↔ (opField h).toNat = 2 :=
  (BitVec.toNat_inj (y := 2#4)).symm

/-- When a decoded command is accepted, by the fields of its header (R25). -/
theorem acceptedNow_decoded {a : Arch} {rate : Rate} {c : Command} {i : Instr} (h : decode c = .ok i)
    (hl : lenLegal rate i = true) :
    acceptedNow a i = true ↔ acceptance a (opField c.header).toNat (lenField c.header).toNat := by
  obtain ⟨-, -, -, hop, hlen, -, -⟩ := decode_ok h
  rw [acceptedNow_iff a i rate hl, hop, hlen]

/-- When the block of a decoded command fits the hold buffer, by the fields of its header (R193). -/
theorem fitsBuffer_decoded {cfg : Cfg} {a : Arch} {c : Command} {i : Instr} (h : decode c = .ok i) :
    fitsBuffer cfg a i = true ↔ ((opField c.header).toNat = 7 ∨ (opField c.header).toNat = 8 →
      a.plen.toNat + (lenField c.header).toNat ≤ cfg.pbufBytes.val) := by
  obtain ⟨-, -, -, hop, hlen, -, -⟩ := decode_ok h
  rw [fitsBuffer_iff, hop, hlen]

/-- A command that passes the checks has done its effect and nothing else (step 7 of R193). -/
theorem execIn_executed {cfg : Cfg} {i : Instr} {s t : State} (hv : verdict cfg s.toArch i = .execute)
    (h : execIn cfg i s = .next t) : ∃ e, effectOf cfg i s.toArch = some e ∧ t = s.complete e := by
  rcases execIn_next h with ⟨hv', -⟩ | ⟨f, hv', -⟩ | ⟨-, hdone⟩
  · cases hv.symm.trans hv'
  · cases hv.symm.trans hv'
  · exact hdone

/-- Settles O9: check 0 by `step_refused`, checks 1 to 3 by the decoder, checks 4 to 6 by the two readings of the
tables of R74 and R25, and step 7 by the one effect of the command. -/
theorem checksAreMadeInOrder : Obligations.ChecksAreMadeInOrder := by
  intro s c rest hin h op len u
  have decoded : rsvField h = 0 → op < 13 → (dirField h = 1 → op = 2) →
      ∃ i, decode c = .ok i ∧ step s = exec i u :=
    fun hr ho hd => by
      obtain ⟨i, hi⟩ := decode_total hr ho fun h1 => opField_eq_two.mpr (hd h1)
      exact ⟨i, hi, stepRunsTheDecodedCommand s c i rest hin hi⟩
  refine ⟨step_refused hin, fun herr hr => step_badHeader hin herr (decode_reserved hr),
    fun herr hr ho => step_badHeader hin herr (decode_illegal hr ho),
    fun herr hr ho hd h2 => step_badHeader hin herr (decode_direction hr ho hd (mt opField_eq_two.mp h2)),
    fun herr hr ho hd hl => ?_, fun herr hr ho hd hl ha => ?_, fun herr hr ho hd hl ha h78 hover => ?_,
    fun herr hr ho hd hl ha hfit => ?_⟩
  all_goals obtain ⟨i, hi, hstep⟩ := decoded hr ho hd
  · rw [hstep]
    exact exec_badLen herr (Bool.eq_false_iff.mpr (mt (lenLegal_decoded hi).mp hl))
  all_goals have hlegal := (lenLegal_decoded hi).mpr hl
  · rw [hstep, exec_eq]
    exact execIn_badPhase herr hlegal (Bool.eq_false_iff.mpr (mt (acceptedNow_decoded hi hlegal).mp ha))
  all_goals have haccepted := (acceptedNow_decoded hi hlegal).mpr ha
  · rw [hstep, exec_eq]
    exact execIn_overflow herr hlegal haccepted
      (Bool.eq_false_iff.mpr fun hfits => Nat.not_le.mpr hover ((fitsBuffer_decoded hi).mp hfits h78))
  · have hv : verdict Config.cfg u.toArch i = .execute :=
      verdict_execute.mpr ⟨.inl herr, hlegal, haccepted, (fitsBuffer_decoded hi).mpr hfit⟩
    obtain ⟨-, -, -, hop, -, -, -⟩ := decode_ok hi
    refine ⟨i, hi, hstep, fun t ht => ?_⟩
    rw [hstep, exec_eq] at ht
    obtain ⟨e, he, rfl⟩ := execIn_executed hv ht
    exact ⟨e.2, rfl, (effectOf_rsp he).imp_right fun ⟨h10, hfail⟩ =>
      ⟨congrArg BitVec.toNat (hop.symm.trans h10), hfail⟩⟩

/-! What is served while `ERR = 1` (R195). -/

/-- Header `0x0000` is `STAT`, whatever the payload. -/
theorem decode_stat_zero {c : Command} (h : c.header = 0x0000) : decode c = .ok (.stat 0) := by
  rw [decode, h]
  rfl

/-- Header `0x000C` is `SCRUB`, whatever the payload. -/
theorem decode_scrub_zero {c : Command} (h : c.header = 0x000C) : decode c = .ok (.scrub 0) := by
  rw [decode, h]
  rfl

/-- `SCRUB` in any state leaves the reset state (R157). -/
theorem exec_scrub_zero_eq (s : State) : exec (.scrub 0) s =
    .next { toArch := Arch.reset, inbox := s.inbox, outbox := s.outbox ++ [emptyResponse .ok] } := by
  obtain ⟨-, hscrub, -⟩ := scrubLeavesTheResetState 0 s
  exact hscrub

/-- Settles O10: the two served headers decode to `STAT` and `SCRUB`, which pass every check, and `step_refused`
is the rest. -/
theorem errorStateServesTwoHeaders : Obligations.ErrorStateServesTwoHeaders := by
  intro s c rest hin herr
  refine ⟨fun h0 => ?_, fun hC => ?_, step_refused hin herr⟩
  · have hstep := stepRunsTheDecodedCommand s c _ rest hin (decode_stat_zero h0)
    obtain ⟨-, hstat, -⟩ := statReturnsStatusAndCounts 0 { s with inbox := rest }
    exact ⟨hstep, _, hstep.trans hstat, rfl, rfl⟩
  · rw [stepRunsTheDecodedCommand s c _ rest hin (decode_scrub_zero hC), exec_scrub_zero_eq]

/-! Every event has a next state (R190, R232). -/

/-- Settles O42: `RDPT` alone could stop the machine, and R37 (j) keeps `PLEN` within the buffer. -/
theorem everyEventHasANextState : Obligations.EveryEventHasANextState := by
  intro s hs
  rcases inbox_cases s.inbox with hin | ⟨rest, hin⟩ | ⟨c, rest, hin⟩
  · exact ⟨s, step_idle hin⟩
  · exact ⟨_, step_reset hin⟩
  · exact step_command_total hin hs.arch.counts.2

/-! Several instances (R207). -/

/-- A step of the `n`-th core writes its own entry, and what it writes depends on that entry only. -/
theorem stepInstance_local {n : Nat} {cores next : List (Cfg × State)} (h : stepInstance n cores = .next next) :
    ∃ v, next = cores.set n v ∧
      (∀ others, others[n]? = cores[n]? → stepInstance n others = .next (others.set n v)) ∧
      ∀ cfg s, cores[n]? = some (cfg, s) → ∃ t, stepIn cfg s = .next t ∧ v = (cfg, t) := by
  rcases stepInstance_cases h with ⟨hnone, rfl⟩ | ⟨cfg, s, t, hsome, hstep, rfl⟩
  · refine ⟨(default, State.reset), (List.set_eq_of_length_le (List.getElem?_eq_none_iff.mp hnone)).symm,
      fun others ho => ?_, fun cfg s hs => by cases hnone.symm.trans hs⟩
    rw [hnone] at ho
    rw [stepInstance, ho, List.set_eq_of_length_le (List.getElem?_eq_none_iff.mp ho)]
  · refine ⟨(cfg, t), rfl, fun others ho => ?_, fun cfg' s' hs => ?_⟩
    · rw [stepInstance, ho.trans hsome]
      simp only [hstep]
    · cases hsome.symm.trans hs
      exact ⟨t, hstep, rfl⟩

/-- Settles O38: each of the two steps leaves the other's entry alone, and writes to different entries commute. -/
theorem instancesAreIndependent : Obligations.InstancesAreIndependent := by
  intro cores x y j k hjk hx hy
  obtain ⟨v, rfl, hj, hv⟩ := stepInstance_local hx
  obtain ⟨w, rfl, hk, hw⟩ := stepInstance_local hy
  refine ⟨(cores.set j v).set k w, hk _ (List.getElem?_set_ne hjk), ?_, by simp, fun cfg s hs => ?_,
    fun cfg s hs => ?_, fun n hnj hnk => ?_⟩
  · rw [List.set_comm _ _ hjk]
    exact hj _ (List.getElem?_set_ne hjk.symm)
  · obtain ⟨t, ht, rfl⟩ := hv cfg s hs
    obtain ⟨hlt, -⟩ := List.getElem?_eq_some_iff.mp hs
    exact ⟨t, ht, by rw [List.getElem?_set_ne hjk.symm, List.getElem?_set_self hlt]⟩
  · obtain ⟨t, ht, rfl⟩ := hw cfg s hs
    obtain ⟨hlt, -⟩ := List.getElem?_eq_some_iff.mp hs
    exact ⟨t, ht, List.getElem?_set_self (by simpa using hlt)⟩
  · rw [List.getElem?_set_ne hnk.symm, List.getElem?_set_ne hnj.symm]

end Sys2Proof.Machine

/-! PROOFS. The statements about reset and the hazards (spec/70_reset_and_hazards.md): reset and `SCRUB` (R221), what
the public behaviour and the responses depend on (R225, R226), and the step with no event waiting (R228). -/

namespace Sys2Proof.Machine

/-- Settles O13: `SCRUB` passes every check and leaves the reset state, as the reset event does. -/
theorem scrubAndResetHaveTheSameEffect : Obligations.ScrubAndResetHaveTheSameEffect :=
  fun s _ => ⟨exec_scrub_zero_eq s, step_reset⟩

/-- Settles O7: the branch of `step` for an empty inbox. -/
theorem idleStepChangesNothing : Obligations.IdleStepChangesNothing :=
  fun _ => step_idle

/-! The public part of an executed command (R225). -/

/-- The one decision that depends on data: whether a `FINDEC` with a whole tag finds its comparison word zero
(R142). -/
def tagMatches (cfg : Cfg) (a : Arch) : Instr → Bool
  | .findec len din => decide (len = 16 ∧ tagDifference (finalizeCore cfg a.K a.S) (dinSlice din 0 16) = 0)
  | _ => false

theorem tagMatches_findec {cfg : Cfg} {a : Arch} {len : BitVec 5} {din : Lanes 20} :
    tagMatches cfg a (.findec len din) = true ↔
      len = 16 ∧ tagDifference (finalizeCore cfg a.K a.S) (dinSlice din 0 16) = 0 := decide_eq_true_iff

/-- What an executed command makes of the public part of the state, and the public part of its response: the two as
a function of the command's row, length and direction, the public part before, and that one decision. -/
def publicEffect (matched : Bool) (v : PublicView) : Instr → PublicView × Rsp × BitVec 5
  | .stat _ => (v, .ok, 12)
  | .ldkey _ _ => ({ v with kvalid := true }, .ok, 0)
  | .init dir _ _ => ({ v with dir := dir, phase := .initialized }, .ok, 0)
  | .adblk _ _ => ({ v with phase := .absorbingAD }, .ok, 0)
  | .adlast _ _ => ({ v with phase := .processing }, .ok, 0)
  | .encblk len _ => (v, .ok, len)
  | .enclast len _ => ({ v with ddone := true }, .ok, len)
  | .decblk len _ => ({ v with plen := v.plen + BitVec.ofNat 32 len.toNat }, .ok, 0)
  | .declast len _ => ({ v with plen := v.plen + BitVec.ofNat 32 len.toNat, ddone := true }, .ok, 0)
  | .finenc _ => ({ v with kvalid := false, phase := .finalized }, .ok, 16)
  | .findec len _ =>
    if matched then ({ v with kvalid := false, phase := .finalized, authOk := true }, .ok, 0)
    else ({ v with
      kvalid := false
      phase := .finalized
      plen := 0
      prd := 0
      authFail := true
      authCause := if len = 16 then .tagMismatch else .undersized }, .authFail, 0)
  | .rdpt len =>
    let m := min len.toNat (v.plen.toNat - v.prd.toNat)
    ({ v with prd := v.prd + BitVec.ofNat 32 m }, .ok, BitVec.ofNat 5 m)
  | .scrub _ => (Arch.reset.publicView, .ok, 0)

/-- The payload has no part in it. -/
theorem publicEffect_congr (matched : Bool) (v : PublicView) {i i' : Instr} (ho : i.opcode = i'.opcode)
    (hl : i.len = i'.len) (hd : i.dirBit = i'.dirBit) : publicEffect matched v i = publicEffect matched v i' := by
  rcases same_row ho hl hd with ⟨len, -, rfl⟩ | ⟨len, din, din', rfl, rfl⟩ | ⟨dir, len, din, din', rfl, rfl⟩ |
    ⟨len, din, din', rfl, rfl⟩ | ⟨len, din, din', rfl, rfl⟩ | ⟨len, din, din', rfl, rfl⟩ |
    ⟨len, din, din', rfl, rfl⟩ | ⟨len, din, din', rfl, rfl⟩ | ⟨len, din, din', rfl, rfl⟩ |
    ⟨len, din, din', rfl, rfl⟩ <;> rfl

/-- `RDPT`, where it completes, answers the `readCount` bytes (R156). -/
theorem rdptEffect_publicView {cfg : Cfg} {len : BitVec 5} {a : Arch} {e : Arch × Response}
    (h : rdptEffect cfg len a = some e) : e.2.publicView = (.ok, BitVec.ofNat 5 (readCount len a)) := by
  unfold rdptEffect memRead at h
  split at h
  next bs hbs =>
    split at hbs
    · cases hbs
      cases h
      simp [Response.publicView, okResponse]
    · cases hbs
  next => cases h

/-- The public part of `FINDEC`, by the branch it takes (R142, R143). -/
theorem findecEffect_publicView (cfg : Cfg) (len : BitVec 5) (din : Lanes 20) (a : Arch) :
    ((findecEffect cfg len din a).1.publicView, (findecEffect cfg len din a).2.publicView) =
      publicEffect (tagMatches cfg a (.findec len din)) a.publicView (.findec len din) := by
  by_cases h16 : len = 16
  · subst h16
    by_cases hd : tagDifference (finalizeCore cfg a.K a.S) (dinSlice din 0 16) = 0
    · have hm : tagMatches cfg a (.findec 16 din) = true := tagMatches_findec.mpr ⟨rfl, hd⟩
      rw [findecEffect_match hd, hm]
      rfl
    · have hm : tagMatches cfg a (.findec 16 din) = false :=
        Bool.eq_false_iff.mpr fun h => hd (tagMatches_findec.mp h).2
      rw [findecEffect_mismatch hd, hm]
      rfl
  · have hm : tagMatches cfg a (.findec len din) = false :=
      Bool.eq_false_iff.mpr fun h => h16 (tagMatches_findec.mp h).1
    rw [findecEffect_undersized h16, hm, publicEffect, if_neg Bool.false_ne_true, if_neg h16]
    rfl

/-- The public part of an executed command is `publicEffect`, whatever `S`, `K`, `PBUF` and the payload hold
(R225). -/
theorem effectOf_publicView {cfg : Cfg} {i : Instr} {a : Arch} {e : Arch × Response}
    (hlegal : lenLegal cfg.rate i = true) (he : effectOf cfg i a = some e) :
    (e.1.publicView, e.2.publicView) = publicEffect (tagMatches cfg a i) a.publicView i := by
  have hrate := Rate.bytes_le cfg.rate
  cases i with
  | stat len => cases he; simp only [statEffect, okResponse, statBytes_length]; rfl
  | encblk len din =>
    have hlen : len.toNat ≤ 16 := (lenLegal_encblk.mp hlegal).trans_le hrate
    cases he; rw [encblkEffect_eq cfg hlen]; rfl
  | enclast len din =>
    have hlen : len.toNat ≤ 16 := (lenLegal_enclast.mp hlegal).le.trans hrate
    cases he; rw [enclastEffect_eq cfg hlen]; rfl
  | decblk len din =>
    have hlen : len.toNat ≤ 16 := (lenLegal_decblk.mp hlegal).trans_le hrate
    cases he; rw [decblkEffect_eq cfg hlen]; rfl
  | declast len din =>
    have hlen : len.toNat ≤ 16 := (lenLegal_declast.mp hlegal).le.trans hrate
    cases he; rw [declastEffect_eq cfg hlen]; rfl
  | finenc len => cases he; rw [finencEffect, okResponse_tagBytes]; rfl
  | findec len din => cases he; exact findecEffect_publicView cfg len din a
  | rdpt len => rw [rdptEffect_arch he, rdptEffect_publicView he]; rfl
  | _ => cases he; rfl

/-! The public part of a step. -/

/-- Two states with the same public part, each of which has given one response more, with the same public part. -/
def SamePublicly (s s' t t' : State) : Prop :=
  t.publicView = t'.publicView ∧
    ∃ r r', t.outbox = s.outbox ++ [r] ∧ t'.outbox = s'.outbox ++ [r'] ∧ r.publicView = r'.publicView

section
variable {s s' : State} (hview : s.publicView = s'.publicView)
include hview

/-- A header that is refused: with `ERR = 1` nothing changes, and a fault leaves its code only (R192, R195). -/
theorem rejectHeader_public (f : FaultCode) : SamePublicly s s' (s.rejectHeader f) (s'.rejectHeader f) := by
  have herr : s.err = s'.err := congrArg PublicView.err hview
  unfold State.rejectHeader
  rw [← herr]
  split
  · exact ⟨hview, faultResponse, faultResponse, rfl, rfl, rfl⟩
  · exact ⟨rfl, faultResponse, faultResponse, rfl, rfl, rfl⟩

/-- A command that decodes: the checks decide alike, and so do the effects where the tags match alike (R225). -/
theorem execIn_public {cfg : Cfg} {i i' : Instr} {t t' : State} (ho : i.opcode = i'.opcode) (hl : i.len = i'.len)
    (hd : i.dirBit = i'.dirBit) (htag : tagMatches cfg s.toArch i = tagMatches cfg s'.toArch i')
    (ht : execIn cfg i s = .next t) (ht' : execIn cfg i' s' = .next t') : SamePublicly s s' t t' := by
  have hverdict : verdict cfg s.toArch i = verdict cfg s'.toArch i' := verdict_public hview ho hl hd
  cases hv : verdict cfg s.toArch i with
  | refuse =>
    cases (execIn_of_refuse hv).symm.trans ht
    cases (execIn_of_refuse (hverdict ▸ hv)).symm.trans ht'
    exact ⟨hview, faultResponse, faultResponse, rfl, rfl, rfl⟩
  | fault f =>
    cases (execIn_of_fault hv).symm.trans ht
    cases (execIn_of_fault (hverdict ▸ hv)).symm.trans ht'
    exact ⟨rfl, faultResponse, faultResponse, rfl, rfl, rfl⟩
  | execute =>
    obtain ⟨-, hlegal, -, -⟩ := verdict_execute.mp hv
    obtain ⟨e, he, rfl⟩ := execIn_executed hv ht
    obtain ⟨e', he', rfl⟩ := execIn_executed (hverdict ▸ hv) ht'
    have hpublic : (e.1.publicView, e.2.publicView) = (e'.1.publicView, e'.2.publicView) := by
      rw [effectOf_publicView hlegal he, effectOf_publicView (lenLegal_congr cfg.rate ho hl ▸ hlegal) he', htag,
        hview, publicEffect_congr _ _ ho hl hd]
    obtain ⟨harch, hresponse⟩ := Prod.mk.inj hpublic
    exact ⟨harch, e.2, e'.2, rfl, rfl, hresponse⟩

end

/-- The tags of two commands of the same row and length match alike, if they do where there is a whole tag. -/
theorem tagMatches_congr {cfg : Cfg} {a a' : Arch} {i i' : Instr} (ho : i.opcode = i'.opcode) (hl : i.len = i'.len)
    (hd : i.dirBit = i'.dirBit)
    (h : ∀ din din', i = .findec 16 din → i' = .findec 16 din' →
      (tagDifference (finalizeCore cfg a.K a.S) (dinSlice din 0 16) = 0 ↔
        tagDifference (finalizeCore cfg a'.K a'.S) (dinSlice din' 0 16) = 0)) :
    tagMatches cfg a i = tagMatches cfg a' i' := by
  rcases same_row ho hl hd with ⟨len, rfl | rfl | rfl | rfl, rfl⟩ | ⟨len, din, din', rfl, rfl⟩ |
    ⟨dir, len, din, din', rfl, rfl⟩ | ⟨len, din, din', rfl, rfl⟩ | ⟨len, din, din', rfl, rfl⟩ |
    ⟨len, din, din', rfl, rfl⟩ | ⟨len, din, din', rfl, rfl⟩ | ⟨len, din, din', rfl, rfl⟩ |
    ⟨len, din, din', rfl, rfl⟩ | ⟨len, din, din', rfl, rfl⟩
  case inr.inr.inr.inr.inr.inr.inr.inr.inr =>
    rw [Bool.eq_iff_iff, tagMatches_findec, tagMatches_findec]
    exact and_congr_right fun h16 => h din din' (h16 ▸ rfl) (h16 ▸ rfl)
  all_goals rfl

/-- Settles O35: commands with the same header are refused alike, or are of one row and length, so that the checks
and the public part of the effect agree. -/
theorem publicBehaviourIgnoresSecrets : Obligations.PublicBehaviourIgnoresSecrets := by
  intro s s' t t' c c' rest rest' hview hin hin' hheader ht ht' htag
  rcases decode_same_header hheader with ⟨f, hf, hf'⟩ | ⟨i, i', hi, hi', ho, hl, hd⟩
  · cases (step_of_error hin hf).symm.trans ht
    cases (step_of_error hin' hf').symm.trans ht'
    exact rejectHeader_public (s := { s with inbox := rest }) (s' := { s' with inbox := rest' }) hview f
  · rw [stepRunsTheDecodedCommand s c i rest hin hi, exec_eq] at ht
    rw [stepRunsTheDecodedCommand s' c' i' rest' hin' hi', exec_eq] at ht'
    have htags : tagMatches Config.cfg s.toArch i = tagMatches Config.cfg s'.toArch i' :=
      tagMatches_congr ho hl hd fun din din' h h' => htag din din' (h ▸ hi) (h' ▸ hi')
    exact execIn_public (s := { s with inbox := rest }) (s' := { s' with inbox := rest' }) hview ho hl hd htags ht ht'

/-! The contents of the hold buffer (R226). -/

/-- `RDPT` is not executed while `AUTH_OK = 0` (R25). -/
theorem rdpt_not_executed {cfg : Cfg} {a : Arch} {len : BitVec 5} (h : a.authOk = false) :
    verdict cfg a (.rdpt len) ≠ .execute := by
  intro hv
  obtain ⟨-, -, hacc, -⟩ := verdict_execute.mp hv
  exact Bool.false_ne_true (h.symm.trans (acceptedNow_rdpt.mp hacc).2)

/-- Every other effect completes, and of what `PBUF` holds it can copy into `PBUF` only. -/
theorem effectOf_sealed (cfg : Cfg) {i : Instr} (a : Arch) (m : Memory) (hi : ∀ len, i ≠ .rdpt len) :
    ∃ e m', effectOf cfg i a = some e ∧
      effectOf cfg i { a with pbuf := m } = some ({ e.1 with pbuf := m' }, e.2) := by
  cases i with
  | rdpt len => exact absurd rfl (hi len)
  | findec len din =>
    by_cases h16 : len = 16
    · subst h16
      by_cases hd : tagDifference (finalizeCore cfg a.K a.S) (dinSlice din 0 16) = 0
      · exact ⟨_, m, congrArg some (findecEffect_match hd),
          congrArg some (findecEffect_match (a := { a with pbuf := m }) hd)⟩
      · exact ⟨_, [], congrArg some (findecEffect_mismatch hd),
          congrArg some (findecEffect_mismatch (a := { a with pbuf := m }) hd)⟩
    · exact ⟨_, [], congrArg some (findecEffect_undersized h16 cfg din a),
        congrArg some (findecEffect_undersized h16 cfg din { a with pbuf := m })⟩
  | scrub len => exact ⟨_, [], rfl, rfl⟩
  | decblk len din | declast len din => exact ⟨_, memWrite m a.plen.toNat (recover a.S (operand din len)), rfl, rfl⟩
  | _ => exact ⟨_, m, rfl, rfl⟩

/-- Two outcomes that are next states, with the same responses and the same state but for `PBUF`. -/
def SameButBuffer (x y : Host.Outcome State Fault Refusal) : Prop :=
  ∃ t u, x = .next t ∧ y = .next u ∧ t.outbox = u.outbox ∧ u = { t with pbuf := u.pbuf }

/-- Next states that are the same but for `PBUF`, which holds `m` in the second. -/
theorem SameButBuffer.of_next (t : State) (m : Memory) : SameButBuffer (.next t) (.next { t with pbuf := m }) :=
  ⟨t, _, rfl, rfl, rfl, rfl⟩

/-- A refused header does not read `PBUF` (R192, R195). -/
theorem rejectHeader_sealed (f : FaultCode) (s : State) (m : Memory) :
    SameButBuffer (.next (s.rejectHeader f)) (.next (State.rejectHeader f { s with pbuf := m })) := by
  unfold State.rejectHeader
  split
  · exact .of_next (s.respond faultResponse) m
  · exact .of_next (s.raiseFault f) []

/-- No meaning answers from `PBUF` while `AUTH_OK = 0` (R226). -/
theorem execIn_sealed (cfg : Cfg) (i : Instr) {s : State} (m : Memory) (h : s.authOk = false) :
    SameButBuffer (execIn cfg i s) (execIn cfg i { s with pbuf := m }) := by
  have hverdict := verdict_pbuf cfg s.toArch m i
  cases hv : verdict cfg s.toArch i with
  | refuse =>
    rw [execIn_of_refuse hv, execIn_of_refuse (s := { s with pbuf := m }) (hverdict.trans hv)]
    exact .of_next (s.respond faultResponse) m
  | fault f =>
    rw [execIn_of_fault hv, execIn_of_fault (s := { s with pbuf := m }) (hverdict.trans hv)]
    exact .of_next (s.raiseFault f) []
  | execute =>
    have hi : ∀ len, i ≠ .rdpt len := fun len hrdpt => rdpt_not_executed h (hrdpt ▸ hv)
    obtain ⟨e, m', he, hm⟩ := effectOf_sealed cfg s.toArch m hi
    rw [execIn_of_execute hv he, execIn_of_execute (s := { s with pbuf := m }) (hverdict.trans hv) hm]
    exact .of_next (s.complete e) m'

/-- Settles O34: no event but `RDPT` answers from `PBUF`, and `RDPT` is not executed while `AUTH_OK = 0`. -/
theorem plaintextStaysSealed : Obligations.PlaintextStaysSealed := by
  intro s m h
  change SameButBuffer (step s) (step { s with pbuf := m })
  rcases inbox_cases s.inbox with hin | ⟨rest, hin⟩ | ⟨c, rest, hin⟩
  · rw [step_idle hin, step_idle (s := { s with pbuf := m }) hin]
    exact .of_next s m
  · rw [step_reset hin, step_reset (s := { s with pbuf := m }) hin]
    exact .of_next _ []
  · cases hd : decode c with
    | error f =>
      rw [step_of_error hin hd, step_of_error (s := { s with pbuf := m }) hin hd]
      exact rejectHeader_sealed f { s with inbox := rest } m
    | ok i =>
      rw [stepRunsTheDecodedCommand s c i rest hin hd,
        stepRunsTheDecodedCommand { s with pbuf := m } c i rest hin hd, exec_eq, exec_eq]
      exact execIn_sealed Config.cfg i (s := { s with inbox := rest }) m h

end Sys2Proof.Machine
